-- ==== Sys2Proof/Word.lean ====
section
/-! DEFINITION. The machine's two widths: the 32-bit word of registers, memory and instructions, and the byte of the two
I/O channels (R3, R4, R97). -/

namespace Sys2Proof

/-- A register value, a memory word, an instruction word, a handle or an index: 32 bits, unsigned (R3, R4). -/
abbrev Word := BitVec 32

/-- What one OUT emits and one IN may receive: a value from 0 to 255 (R96, R97). -/
abbrev Byte := BitVec 8

end Sys2Proof
end

