-- ==== Sys2Proof/Config.lean ====
section
/-! DEFINITION. What is fixed for a machine or for a run: the parameters of R3, and the one free value of the model. -/

namespace Sys2Proof

/-- `NREGS` of R3. -/
abbrev Config.numRegs : Nat := 8

/-- `MAX_HANDLES` of R3 and R45: the segment table never has more entries. -/
abbrev Config.maxHandles : Nat := 4294967296

/-- R3, R120: a program or a segment has fewer than this many words (`MAX_SEG_LEN` is one less). -/
abbrev Config.programLimit : Nat := 4294967296

/-- FREE VALUE (no body; log entry 5): byte `k` of the endless input source numbered `source`. R96 lets `INPUT` be an
infinite sequence of bytes, which plain data cannot list; a claim proved of this constant holds for every such sequence. -/
opaque Config.endlessByte (source k : Nat) : Byte

/-- The parameter `INPUT` of R96, a finite or an infinite sequence of bytes: `bytes`, and then, where `endless` names a
source, the bytes of that source for ever; otherwise the sequence ends after `bytes`. -/
structure InputSource where
  bytes   : List Byte
  endless : Option Nat
  deriving DecidableEq, Repr

/-- The parameters of one run that R10 names beside the state: `CAPACITY_WORDS` (`none` is R45's default, unbounded) and
`INPUT`. (The third, `PROGRAM`, is segment 0 of the state a run starts from.) -/
structure RunConfig where
  capacity : Option Nat
  input    : InputSource
  deriving DecidableEq, Repr

/-- R45's default capacity, and the empty input source (log entry 4). -/
def RunConfig.default : RunConfig := { capacity := none, input := { bytes := [], endless := none } }

end Sys2Proof
end

