-- ==== Sys2Proof/Syntax.lean ====
section
/-! DEFINITION. The instructions, one constructor for each row of spec/opcode_table.json, with the operand fields the row
uses (R55). Every index field is 3 bits wide and names a register whatever it holds (R12), so its type is `Fin 8`; the
immediate is 25 bits (R54). -/

namespace Sys2Proof

/-- The number of a general register, `x[0]` to `x[7]` (R11). -/
abbrev RegIdx := Fin Config.numRegs

/-- The 14 operations and the two opcode values that do nothing (R55, R57). -/
inductive Instr where
  | cmov (a b c : RegIdx)
  | aidx (a b c : RegIdx)
  | amend (a b c : RegIdx)
  | add (a b c : RegIdx)
  | mul (a b c : RegIdx)
  | div (a b c : RegIdx)
  | nand (a b c : RegIdx)
  | halt
  | alloc (b c : RegIdx)
  | abandon (c : RegIdx)
  | output (c : RegIdx)
  | input (c : RegIdx)
  | loadprog (b c : RegIdx)
  | ortho (oa : RegIdx) (imm : BitVec 25)
  | nop14
  | nop15
  deriving DecidableEq, Repr

end Sys2Proof
end

