-- ==== Sys2Proof/WellFormed.lean ====
section
/-! DEFINITION. Well-formedness. The types of Instr's fields already hold every bound R53 puts on a decoded field, so an
ill-formed Instr cannot be written down. The checks stand where an ill-formed term exists: on a line of the assembler of
R59, whose registers and numbers are plain naturals. -/

namespace Sys2Proof

/-- The mnemonics of R55 and R59. -/
inductive Mnemonic where
  | cmov | aidx | amend | add | mul | div | nand | halt | alloc | abandon | output | input | loadprog | ortho | nop14 | nop15
  deriving DecidableEq, Repr

/-- An operand as R59 writes it: `rN`, or an immediate number. -/
inductive Operand where
  | reg (n : Nat)
  | imm (n : Nat)
  deriving DecidableEq, Repr

/-- A line of R59: a mnemonic with its operands in the order written, or `.word v`. (Text and comments are not modelled,
log entry 13.) -/
inductive AsmLine where
  | op (m : Mnemonic) (args : List Operand)
  | data (v : Nat)
  deriving DecidableEq, Repr

/-- How many register operands R59 gives a mnemonic of the standard format. -/
def Mnemonic.regCount : Mnemonic → Nat
  | .cmov | .aidx | .amend | .add | .mul | .div | .nand => 3
  | .alloc | .loadprog => 2
  | .abandon | .output | .input => 1
  | .halt | .nop14 | .nop15 => 0
  | .ortho => 1

/-- R59: registers are `r0` to `r7`. -/
def Operand.isRegister : Operand → Bool
  | .reg n => n < Config.numRegs
  | .imm _ => false

/-- The checks of R59: the operands of the mnemonic, each register below 8, the immediate at most 33554431, and a `.word`
within 32 bits. -/
def AsmLine.wf : AsmLine → Bool
  | .op .ortho [.reg a, .imm v] => (Operand.reg a).isRegister && decide (v < 2 ^ 25)
  | .op .ortho _ => false
  | .op m args => args.length == m.regCount && args.all Operand.isRegister
  | .data v => v < 2 ^ 32

/-- The line R59 writes an instruction as. -/
def Instr.toAsm : Instr → AsmLine
  | .cmov a b c => .op .cmov [.reg a, .reg b, .reg c]
  | .aidx a b c => .op .aidx [.reg a, .reg b, .reg c]
  | .amend a b c => .op .amend [.reg a, .reg b, .reg c]
  | .add a b c => .op .add [.reg a, .reg b, .reg c]
  | .mul a b c => .op .mul [.reg a, .reg b, .reg c]
  | .div a b c => .op .div [.reg a, .reg b, .reg c]
  | .nand a b c => .op .nand [.reg a, .reg b, .reg c]
  | .halt => .op .halt []
  | .alloc b c => .op .alloc [.reg b, .reg c]
  | .abandon c => .op .abandon [.reg c]
  | .output c => .op .output [.reg c]
  | .input c => .op .input [.reg c]
  | .loadprog b c => .op .loadprog [.reg b, .reg c]
  | .ortho oa imm => .op .ortho [.reg oa, .imm imm.toNat]
  | .nop14 => .op .nop14 []
  | .nop15 => .op .nop15 []

/-- An instruction is well formed when its assembler line is; Laws/PerInstr.lean shows that each one is. -/
def Instr.wf (i : Instr) : Bool := i.toAsm.wf

end Sys2Proof
end

