-- ==== Sys2Proof/Decode.lean ====
section
/-! DEFINITION. The decoder (R50 to R58), the encoder and the assembler (R59, R60), and the conversion of a byte image
into words at the core's boundary (R46). The decoder is total: there is no illegal encoding (R53, R57), so it refuses
nothing. -/

namespace Sys2Proof

/-- `OP = w[31:28]`, both formats (R51, R52). -/
def opField (w : Word) : BitVec 4 := w.extractLsb' 28 4

/-- `A = w[8:6]` of the standard format (R51). -/
def aField (w : Word) : RegIdx := (w.extractLsb' 6 3).toFin

/-- `B = w[5:3]` of the standard format (R51). -/
def bField (w : Word) : RegIdx := (w.extractLsb' 3 3).toFin

/-- `C = w[2:0]` of the standard format (R51). -/
def cField (w : Word) : RegIdx := (w.extractLsb' 0 3).toFin

/-- `OA = w[27:25]` of the orthography format (R52). -/
def oaField (w : Word) : RegIdx := (w.extractLsb' 25 3).toFin

/-- `IMM = w[24:0]` of the orthography format (R52, R54). -/
def immField (w : Word) : BitVec 25 := w.extractLsb' 0 25

/-- The opcode map of R55: the opcode field selects the instruction and its format (R58), and nothing else does. -/
def decode (w : Word) : Instr :=
  match opField w with
  | 0#4 => .cmov (aField w) (bField w) (cField w)
  | 1#4 => .aidx (aField w) (bField w) (cField w)
  | 2#4 => .amend (aField w) (bField w) (cField w)
  | 3#4 => .add (aField w) (bField w) (cField w)
  | 4#4 => .mul (aField w) (bField w) (cField w)
  | 5#4 => .div (aField w) (bField w) (cField w)
  | 6#4 => .nand (aField w) (bField w) (cField w)
  | 7#4 => .halt
  | 8#4 => .alloc (bField w) (cField w)
  | 9#4 => .abandon (cField w)
  | 10#4 => .output (cField w)
  | 11#4 => .input (cField w)
  | 12#4 => .loadprog (bField w) (cField w)
  | 13#4 => .ortho (oaField w) (immField w)
  | 14#4 => .nop14
  | _ => .nop15   -- 15, the only value left

/-- `EncStd(op, a, b, c)` of R60. -/
def encStd (op : BitVec 4) (a b c : RegIdx) : Word :=
  (op.zeroExtend 32 <<< 28) ||| (BitVec.ofNat 32 a.val <<< 6) ||| (BitVec.ofNat 32 b.val <<< 3) ||| BitVec.ofNat 32 c.val

/-- `EncOrtho(a, imm)` of R60. -/
def encOrtho (oa : RegIdx) (imm : BitVec 25) : Word :=
  ((13#4).zeroExtend 32 <<< 28) ||| (BitVec.ofNat 32 oa.val <<< 25) ||| imm.zeroExtend 32

/-- The word R59 assembles an instruction to; unused fields and ignored bits are zero. -/
def encode : Instr → Word
  | .cmov a b c => encStd 0 a b c
  | .aidx a b c => encStd 1 a b c
  | .amend a b c => encStd 2 a b c
  | .add a b c => encStd 3 a b c
  | .mul a b c => encStd 4 a b c
  | .div a b c => encStd 5 a b c
  | .nand a b c => encStd 6 a b c
  | .halt => encStd 7 0 0 0
  | .alloc b c => encStd 8 0 b c
  | .abandon c => encStd 9 0 0 c
  | .output c => encStd 10 0 0 c
  | .input c => encStd 11 0 0 c
  | .loadprog b c => encStd 12 0 b c
  | .ortho oa imm => encOrtho oa imm
  | .nop14 => encStd 14 0 0 0
  | .nop15 => encStd 15 0 0 0

/-- A register operand of an assembler line, where it names a register. -/
def regIdx? (n : Nat) : Option RegIdx := if h : n < Config.numRegs then some ⟨n, h⟩ else none

/-- The instruction an assembler line stands for; `none` for a `.word` line and for an ill-formed one (R59). -/
def AsmLine.instr? : AsmLine → Option Instr
  | .op .cmov [.reg a, .reg b, .reg c] => return .cmov (← regIdx? a) (← regIdx? b) (← regIdx? c)
  | .op .aidx [.reg a, .reg b, .reg c] => return .aidx (← regIdx? a) (← regIdx? b) (← regIdx? c)
  | .op .amend [.reg a, .reg b, .reg c] => return .amend (← regIdx? a) (← regIdx? b) (← regIdx? c)
  | .op .add [.reg a, .reg b, .reg c] => return .add (← regIdx? a) (← regIdx? b) (← regIdx? c)
  | .op .mul [.reg a, .reg b, .reg c] => return .mul (← regIdx? a) (← regIdx? b) (← regIdx? c)
  | .op .div [.reg a, .reg b, .reg c] => return .div (← regIdx? a) (← regIdx? b) (← regIdx? c)
  | .op .nand [.reg a, .reg b, .reg c] => return .nand (← regIdx? a) (← regIdx? b) (← regIdx? c)
  | .op .halt [] => some .halt
  | .op .alloc [.reg b, .reg c] => return .alloc (← regIdx? b) (← regIdx? c)
  | .op .abandon [.reg c] => return .abandon (← regIdx? c)
  | .op .output [.reg c] => return .output (← regIdx? c)
  | .op .input [.reg c] => return .input (← regIdx? c)
  | .op .loadprog [.reg b, .reg c] => return .loadprog (← regIdx? b) (← regIdx? c)
  | .op .ortho [.reg a, .imm v] => if v < 2 ^ 25 then return .ortho (← regIdx? a) (BitVec.ofNat 25 v) else none
  | .op .nop14 [] => some .nop14
  | .op .nop15 [] => some .nop15
  | _ => none

/-- The word a line assembles to (the table of R59); `none` for an ill-formed line. -/
def AsmLine.assemble : AsmLine → Option Word
  | .data v => if v < 2 ^ 32 then some (BitVec.ofNat 32 v) else none
  | .op m args => (AsmLine.op m args).instr?.map encode

/-- Four bytes as one word, the most significant first (R46). -/
def beWord (b0 b1 b2 b3 : Byte) : Word :=
  (b0.zeroExtend 32 <<< 24) ||| (b1.zeroExtend 32 <<< 16) ||| (b2.zeroExtend 32 <<< 8) ||| b3.zeroExtend 32

/-- The words of a program image: four bytes each, and a trailing partial word is dropped (R46). -/
def imageWords : List Byte → List Word
  | b0 :: b1 :: b2 :: b3 :: rest => beWord b0 b1 b2 b3 :: imageWords rest
  | _ => []

/-- The instruction word whose lower `nbits` bits are those of `w` and whose other bits are 0. -/
def tableWord (nbits w : Nat) : Word := BitVec.ofNat 32 (w % 2 ^ nbits)

/-- The instruction the decoder reads from a word of the opcode table: one 32-bit word (R50), with no byte order inside
the core (R36). Never `none`: every word decodes (R53). -/
def decodeTableWord (nbits w : Nat) : Option Instr := some (decode (tableWord nbits w))

end Sys2Proof
end

