-- ==== Sys2Proof/Machine/State.lean ====
section
/-! DEFINITION. The state of the machine (R10), the reasons a step can stop, and the state after reset (R26, R120).
Everything here is plain data. -/

namespace Sys2Proof.Machine

/-- The five faults of the machine (R100): each is the cause of a final run status, and none is an answer of the host's
`fault`, which is `Fault` below. -/
inductive FaultCause where
  | divideByZero
  | invalidHandle
  | indexOutOfBounds
  | invalidOutputValue
  | malformedProgram
  deriving DecidableEq, Repr

/-- The run status, one of seven values (R17). -/
inductive RunStatus where
  | running
  | halted
  | faulted (c : FaultCause)
  deriving DecidableEq, Repr

/-- A segment (R19): `len` words, the word at index `i` being the one listed in `cells` under `i`, or zero where none is
listed. The canonical form (`Segment.wf` in Ops.lean) lists the non-zero words only, indexes strictly rising, so that
equal segments are equal data (log entry 6). `len` is a word, so a length never exceeds 2^32 - 1 (R3, R15). -/
structure Segment where
  len   : Word
  cells : List (Nat × Word)
  deriving DecidableEq, Repr

/-- Segment memory: the segment table, whose entry is `none` where R20 says `EMPTY`, and the free-handle pool, its top
first (R21). -/
structure Memory where
  seg  : List (Option Segment)
  pool : List Word
  deriving DecidableEq, Repr

/-- The state, element for element that of R10: the register file `x[0..7]`, the execution finger, the segment table and
the pool, the run status, and the two I/O elements of R23. `config` holds the parameters of the run that R10 names as no
state; no instruction changes it (log entry 3). -/
structure State where
  regs   : Vector Word Config.numRegs
  pc     : Word
  mem    : Memory
  status : RunStatus
  out    : List Byte
  inPos  : Nat
  config : RunConfig
  deriving DecidableEq, Repr

/-- Why the machine has no next state. The five faults of R100 are no such reason: a step that meets one answers the next
state that R106 describes. -/
inductive Fault where
  /-- `step` raises it in `HALTED`, from which no step exists (R65, R71). Safe: the hardware takes no step either. -/
  | haltedNoStep
  /-- `step` raises it in `FAULTED(c)`, from which no step exists (R65, R71). Safe, as above. -/
  | faultedNoStep (c : FaultCause)
  /-- ALLOC raises it with an empty pool and a table of 2^32 entries: stuck (R45, R93). Safe: nothing is concluded. -/
  | stuckNoHandle
  /-- ALLOC and LOADPROG raise it when a finite `CAPACITY_WORDS` would be exceeded: stuck (R45). Safe: nothing is
  concluded. -/
  | stuckNoStorage
  deriving DecidableEq, Repr

/-- Why an instruction has no meaning in the model. -/
inductive Refusal where
  /-- For an arm of `exec` whose instruction has no meaning yet; no arm raises it now. Safe: the machine stops. -/
  | notModelled (mnemonic : String)
  deriving DecidableEq, Repr

/-- What executing one instruction, or one step, answers. -/
abbrev Result := Host.Outcome State Fault Refusal

/-- A segment of no words. -/
def Segment.empty : Segment := { len := 0#32, cells := [] }

/-- R26 with the empty `PROGRAM`, unbounded storage and an empty `INPUT` (log entry 4: R120 makes the program an argument
of reset, and this constant takes none). `State.boot` in Ops.lean is the reset with any program and parameters. -/
def State.reset : State where
  regs   := Vector.replicate Config.numRegs 0#32
  pc     := 0#32
  mem    := { seg := [some Segment.empty], pool := [] }
  status := .running
  out    := []
  inPos  := 0
  config := RunConfig.default

end Sys2Proof.Machine
end

