-- ==== Sys2Proof/Machine/Ops.lean ====
section
/-! DEFINITION. The named operations over memory, registers, the run status and the two I/O channels: the primitives of R5,
from which every meaning is built, taking a fault (R106), and reset with a program (R120). -/

namespace Sys2Proof.Machine

/-! ### The words of one segment -/

/-- What a word of a segment that is not listed reads as: a segment is zero-filled when it is created (R19, R90). -/
def unlistedWord : Word := 0#32

/-- The word listed under index `i`, or `unlistedWord`. -/
def lookupCell : List (Nat × Word) → Nat → Word
  | [], _ => unlistedWord
  | (k, v) :: rest, i => if k = i then v else lookupCell rest i

/-- Puts `(i, v)` before the first larger index. -/
def insertCell : List (Nat × Word) → Nat → Word → List (Nat × Word)
  | [], i, v => [(i, v)]
  | (k, x) :: rest, i, v => if i < k then (i, v) :: (k, x) :: rest else (k, x) :: insertCell rest i v

/-- Replaces the word at index `i`. Writing `unlistedWord` removes the entry, which keeps the form canonical. -/
def storeCell (cells : List (Nat × Word)) (i : Nat) (v : Word) : List (Nat × Word) :=
  let others := cells.filter (fun cell => cell.1 != i)
  if v = unlistedWord then others else insertCell others i v

/-- The entries that list the given words from index `k` on. -/
def cellsFrom : Nat → List Word → List (Nat × Word)
  | _, [] => []
  | k, w :: ws => if w = unlistedWord then cellsFrom (k + 1) ws else (k, w) :: cellsFrom (k + 1) ws

/-- The indexes rise strictly from `lo` on, stay below `hi`, and no entry lists `unlistedWord`. -/
def cellsCanonical : Nat → Nat → List (Nat × Word) → Bool
  | _, _, [] => true
  | lo, hi, (k, v) :: rest => decide (lo ≤ k) && decide (k < hi) && (v != unlistedWord) && cellsCanonical (k + 1) hi rest

/-- The canonical form of a segment. -/
def Segment.wf (g : Segment) : Bool := cellsCanonical 0 g.len.toNat g.cells

/-- `seg[i]`, for an index below the length (R32). -/
def Segment.word (g : Segment) (i : Nat) : Word := lookupCell g.cells i

/-- The segment with the word at `i` replaced; its length is unchanged (R33). -/
def Segment.write (g : Segment) (i : Nat) (v : Word) : Segment := { g with cells := storeCell g.cells i v }

/-- `n` words, each zero (R90). -/
def Segment.zeros (n : Word) : Segment := { len := n, cells := [] }

/-- The segment that holds the given words, of which there are fewer than 2^32. -/
def Segment.ofWords (ws : List Word) : Segment := { len := BitVec.ofNat 32 ws.length, cells := cellsFrom 0 ws }

/-- The segment as the sequence of words R19 describes. -/
def Segment.words (g : Segment) : List Word := (List.range g.len.toNat).map g.word

/-! ### The segment table and the pool -/

/-- `seg[h]`, where `Valid(h)`: `h < tlen` and the entry is not `EMPTY` (R34). -/
def Memory.segment? (m : Memory) (h : Word) : Option Segment := (m.seg[h.toNat]?).join

/-- `Valid(h)` of R34. -/
def Memory.valid (m : Memory) (h : Word) : Bool := (m.segment? h).isSome

/-- The two checks before an access to `(h, i)`, the handle first and then the bound, unsigned on 32 bits (R34, R35,
R108). -/
def Memory.access (m : Memory) (h i : Word) : Except FaultCause Segment :=
  match m.segment? h with
  | none => .error .invalidHandle
  | some g => if i.toNat < g.len.toNat then .ok g else .error .indexOutOfBounds

/-- `MemRead((h, i), 32)`, where it is defined (R32). -/
def Memory.read (m : Memory) (h i : Word) : Option Word :=
  match m.access h i with
  | .ok g => some (g.word i.toNat)
  | .error _ => none

/-- The table with entry `h` replaced. -/
def Memory.setEntry (m : Memory) (h : Word) (e : Option Segment) : Memory := { m with seg := m.seg.set h.toNat e }

/-- `MemWrite((h, i), 32, v)`; `h` names `g` (R33). -/
def Memory.write (m : Memory) (h : Word) (g : Segment) (i v : Word) : Memory :=
  m.setEntry h (some (g.write i.toNat v))

/-- `NewHandle()` of R93: the top of the pool, else one entry more at the end of the table. `none` where R45 says that no
handle is left. -/
def Memory.newHandle (m : Memory) : Option (Word × Memory) :=
  match m.pool with
  | h :: rest => some (h, { m with pool := rest })
  | [] =>
    if m.seg.length < Config.maxHandles then
      some (BitVec.ofNat 32 m.seg.length, { m with seg := m.seg ++ [none] })
    else none

/-- Frees handle `h`: the entry becomes `EMPTY` and the handle goes on top of the pool (R91). -/
def Memory.free (m : Memory) (h : Word) : Memory :=
  { m.setEntry h none with pool := h :: m.pool }

/-- The number of words an entry of the table takes. -/
def entrySize : Option Segment → Nat
  | none => 0
  | some g => g.len.toNat

/-- The total number of words in all valid segments (R45). -/
def Memory.totalWords (m : Memory) : Nat := (m.seg.map entrySize).sum

/-- Whether the storage of `m` is within `CAPACITY_WORDS`; always so when that is unbounded (R45). -/
def Memory.fits (m : Memory) (capacity : Option Nat) : Bool :=
  match capacity with
  | none => true
  | some limit => m.totalWords ≤ limit

/-- The canonical form of memory: every segment in the table has it. -/
def Memory.wf (m : Memory) : Bool := m.seg.all (fun e => e.all Segment.wf)

/-! ### Registers, the finger, the status -/

/-- `x[r]`. No register is hard-wired (R11). -/
def State.reg (s : State) (r : RegIdx) : Word := s.regs[r]

/-- `x[r] <- v`. -/
def State.setReg (s : State) (r : RegIdx) (v : Word) : State := { s with regs := s.regs.set r v }

/-- `pc <- t`. -/
def State.setPc (s : State) (t : Word) : State := { s with pc := t }

/-- The state with its memory replaced. -/
def State.setMem (s : State) (m : Memory) : State := { s with mem := m }

/-- FETCH (R66): the word at `(0, pc)`, or `none` where there is no word. -/
def State.fetch (s : State) : Option Word := s.mem.read 0#32 s.pc

/-- ADVANCE (R67). A fetch succeeds only below a length of at most 2^32 - 1, so this does not wrap (R15). -/
def State.advance (s : State) : State := s.setPc (s.pc + 1#32)

/-- TAKING A FAULT, `raise F` (R106): the run status records the cause and nothing else changes. The finger keeps the value
it has where the fault is raised, nothing is saved, and control goes nowhere. There is no return from a fault (R111). -/
def State.raise (s : State) (c : FaultCause) : State := { s with status := .faulted c }

/-- `status <- HALTED` (R89). -/
def State.halt (s : State) : State := { s with status := .halted }

/-! ### The two channels -/

/-- `Emit(b)`: the byte joins the end of `out` (R97). -/
def State.emit (s : State) (b : Byte) : State := { s with out := s.out ++ [b] }

/-- `INPUT[k]`, where `INPUT` has a byte `k` (R96). -/
def inputByte? (src : InputSource) (k : Nat) : Option Byte :=
  match src.bytes[k]? with
  | some b => some b
  | none => src.endless.map (fun source => Config.endlessByte source k)

/-- `Take()` (R96): the next byte, or `none` for `Exhausted`. -/
def State.take (s : State) : Option Byte := inputByte? s.config.input s.inPos

/-- One more byte has been taken (R95). -/
def State.countByte (s : State) : State := { s with inPos := s.inPos + 1 }

/-! ### Reset -/

/-- The reset of R120 with the program and the parameters of the run. A program of 2^32 words or more is outside the spec
and refused (R15, and U15 of 93_implementation_defined.md). -/
def State.boot (program : List Word) (config : RunConfig) : Option State :=
  if program.length < Config.programLimit then
    some { State.reset with mem := { seg := [some (Segment.ofWords program)], pool := [] }, config := config }
  else none

/-- Memory with the word `w` at `(0, i)`, segment 0 made long enough to hold it (and made at all, in a state that has
none). Only for placing an instruction from outside the machine; no instruction uses it. -/
def Memory.placeWord (m : Memory) (i w : Word) : Memory :=
  let old := (m.segment? 0#32).getD Segment.empty
  let grown : Segment := { old with len := if old.len.toNat ≤ i.toNat then i + 1#32 else old.len }
  { m with seg := some (grown.write i.toNat w) :: m.seg.tail }

end Sys2Proof.Machine
end

