-- ==== Sys2Proof/Machine/Operands.lean ====
section
/-! DEFINITION. The operand forms. There are two: a register named by an index field, read by `State.reg` and written by
`State.setReg` (R12, R54), and the 25-bit immediate. The one addressing mode is a pair of registers, handle and word index,
with no offset, scaling or update (R30), so an address needs no computation: the meanings pass the two register values to
`Memory.access`. Here are the values that are widened or narrowed on their way. -/

namespace Sys2Proof.Machine

/-- `zext_32(IMM)`: the immediate is unsigned, neither scaled, shifted nor sign-extended (R54). -/
def immWord (imm : BitVec 25) : Word := imm.zeroExtend 32

/-- `zext_32(b)` of an input byte (R95). -/
def byteWord (b : Byte) : Word := b.zeroExtend 32

/-- `v[7:0]` of an output value (R94). -/
def lowByte (v : Word) : Byte := v.extractLsb' 0 8

/-- The end-of-input sentinel (R95). -/
def endOfInput : Word := 0xFFFFFFFF#32

/-- What IN writes for an answer of the source (R95, R96). -/
def inputWord : Option Byte → Word
  | some b => byteWord b
  | none => endOfInput

end Sys2Proof.Machine
end

