-- ==== Sys2Proof/Machine/Arith.lean ====
section
/-! DEFINITION. Arithmetic on 32-bit unsigned values: ADD (R84), MUL (R85), DIV (R86), with the laws of R87: the exact
result, then its low 32 bits. -/

namespace Sys2Proof.Machine

/-- ADD, opcode 3 (R84). -/
def execAdd (a b c : RegIdx) (s : State) : Result :=
  .next (s.setReg a (BitVec.ofNat 32 ((s.reg b).toNat + (s.reg c).toNat)))

/-- MUL, opcode 4 (R85). -/
def execMul (a b c : RegIdx) (s : State) : Result :=
  .next (s.setReg a (BitVec.ofNat 32 ((s.reg b).toNat * (s.reg c).toNat)))

/-- DIV, opcode 5 (R86). -/
def execDiv (a b c : RegIdx) (s : State) : Result :=
  if s.reg c = 0#32 then .next (s.raise .divideByZero)
  else .next (s.setReg a (BitVec.ofNat 32 ((s.reg b).toNat / (s.reg c).toNat)))

end Sys2Proof.Machine
end

