-- ==== Sys2Proof/Machine/ArrayAccess.lean ====
section
/-! DEFINITION. The machine's one load and one store: AIDX (R82) and AMEND (R83). -/

namespace Sys2Proof.Machine

/-- AIDX, opcode 1: `x[A] <- seg[x[B]][x[C]]` (R82). -/
def execAidx (a b c : RegIdx) (s : State) : Result :=
  match s.mem.access (s.reg b) (s.reg c) with
  | .error f => .next (s.raise f)
  | .ok g => .next (s.setReg a (g.word (s.reg c).toNat))

/-- AMEND, opcode 2: `seg[x[A]][x[B]] <- x[C]` (R83). -/
def execAmend (a b c : RegIdx) (s : State) : Result :=
  match s.mem.access (s.reg a) (s.reg b) with
  | .error f => .next (s.raise f)
  | .ok g => .next (s.setMem (s.mem.write (s.reg a) g (s.reg b) (s.reg c)))

end Sys2Proof.Machine
end

