-- ==== Sys2Proof/Machine/Ending.lean ====
section
/-! DEFINITION. The clean end of a run: HALT (R89). -/

namespace Sys2Proof.Machine

/-- HALT, opcode 7 (R89). -/
def execHalt (s : State) : Result := .next s.halt

end Sys2Proof.Machine
end

