-- ==== Sys2Proof/Machine/Flags.lean ====
section
/-! DEFINITION. The machine has no status flags, condition codes or predicate registers (R16), so no flag is computed
anywhere. Here are the conditions that instructions test in their place, and the numeric run status of the host interface,
which is all the machine has of a status register (R18, R101). -/

namespace Sys2Proof.Machine

/-- CMOV's condition: not equal to zero, on all 32 bits (R80). -/
def isNonZero (v : Word) : Bool := v != 0#32

/-- OUT's condition: a value from 0 to 255 (R94). -/
def isByteValue (v : Word) : Bool := v.toNat ≤ 255

/-- The cause codes of R101. -/
def FaultCause.code : FaultCause → Nat
  | .divideByZero => 1
  | .invalidHandle => 2
  | .indexOutOfBounds => 3
  | .invalidOutputValue => 4
  | .malformedProgram => 5

/-- The pair (`state`, `cause`) the host reads between steps (R101, R132). -/
def RunStatus.hostPair : RunStatus → Nat × Nat
  | .running => (0, 0)
  | .halted => (1, 0)
  | .faulted c => (2, c.code)

end Sys2Proof.Machine
end

