-- ==== Sys2Proof/Machine/InOut.lean ====
section
/-! DEFINITION. Input and output: OUT (R94) and IN (R95). Waiting for the sink or the source is no state of the model (R74,
log entry 10). -/

namespace Sys2Proof.Machine

/-- OUT, opcode 10 (R94). -/
def execOutput (c : RegIdx) (s : State) : Result :=
  if isByteValue (s.reg c) then .next (s.emit (lowByte (s.reg c))) else .next (s.raise .invalidOutputValue)

/-- IN, opcode 11 (R95): a byte is counted, exhaustion is not. -/
def execInput (c : RegIdx) (s : State) : Result :=
  match s.take with
  | some b => .next (s.setReg c (inputWord (some b))).countByte
  | none => .next (s.setReg c (inputWord none))

end Sys2Proof.Machine
end

