-- ==== Sys2Proof/Machine/Logic.lean ====
section
/-! DEFINITION. Logic: NAND (R88). -/

namespace Sys2Proof.Machine

/-- NAND, opcode 6 (R88). -/
def execNand (a b c : RegIdx) (s : State) : Result :=
  .next (s.setReg a (~~~(s.reg b &&& s.reg c)))

end Sys2Proof.Machine
end

