-- ==== Sys2Proof/Machine/Move.lean ====
section
/-! DEFINITION. Register moves: CMOV (R80) and ORTHO (R81). As everywhere in the meanings, the state is the one after FETCH
and ADVANCE, so the finger has already moved past the instruction (R67), and all operands are read before the write (R5). -/

namespace Sys2Proof.Machine

/-- CMOV, opcode 0 (R80). -/
def execCmov (a b c : RegIdx) (s : State) : Result :=
  .next (if isNonZero (s.reg c) then s.setReg a (s.reg b) else s)

/-- ORTHO, opcode 13 (R81). -/
def execOrtho (oa : RegIdx) (imm : BitVec 25) (s : State) : Result :=
  .next (s.setReg oa (immWord imm))

end Sys2Proof.Machine
end

