-- ==== Sys2Proof/Machine/NoOperation.lean ====
section
/-! DEFINITION. The opcode values that name no operation: NOP14 (R98) and NOP15 (R99). The advance of the finger is the
step's, not theirs. -/

namespace Sys2Proof.Machine

/-- NOP14, opcode value 14 (R98). -/
def execNop14 (s : State) : Result := .next s

/-- NOP15, opcode value 15 (R99). -/
def execNop15 (s : State) : Result := .next s

end Sys2Proof.Machine
end

