-- ==== Sys2Proof/Machine/SegmentTable.lean ====
section
/-! DEFINITION. The operations on the segment table: ALLOC (R90), ABANDON (R91), LOADPROG (R92). Where R45 says that the
machine is stuck they answer a `Fault`. -/

namespace Sys2Proof.Machine

/-- ALLOC, opcode 8 (R90). -/
def execAlloc (b c : RegIdx) (s : State) : Result :=
  match s.mem.newHandle with
  | none => .fault .stuckNoHandle
  | some (h, m) =>
    let m' := m.setEntry h (some (Segment.zeros (s.reg c)))
    if m'.fits s.config.capacity then .next ((s.setMem m').setReg b h) else .fault .stuckNoStorage

/-- ABANDON, opcode 9 (R91). -/
def execAbandon (c : RegIdx) (s : State) : Result :=
  if s.reg c = 0#32 then .next (s.raise .invalidHandle)
  else if s.mem.valid (s.reg c) then .next (s.setMem (s.mem.free (s.reg c)))
  else .next (s.raise .invalidHandle)

/-- LOADPROG, opcode 12 (R92): memory holds values, so the new segment 0 is a copy that shares nothing with its source
(R44). -/
def execLoadprog (b c : RegIdx) (s : State) : Result :=
  match s.mem.segment? (s.reg b) with
  | none => .next (s.raise .invalidHandle)
  | some g =>
    if s.reg b = 0#32 then .next (s.setPc (s.reg c))
    else
      let m' := s.mem.setEntry 0#32 (some g)
      if m'.fits s.config.capacity then .next ((s.setMem m').setPc (s.reg c)) else .fault .stuckNoStorage

end Sys2Proof.Machine
end

