-- ==== Sys2Proof/Machine/Step.lean ====
section
/-! DEFINITION. The step (R65, R75), and the placing of one instruction where the next step fetches. -/

namespace Sys2Proof.Machine

/-- One iteration of the loop, as R75 writes it: a step exists only while the status is `RUNNING` (R65); FETCH, which
raises `MalformedProgram` where there is no word (R66); ADVANCE (R67); DECODE (R68); EXECUTE (R69). -/
def step (s : State) : Host.Outcome State Fault Refusal :=
  match s.status with
  | .halted => .fault .haltedNoStep
  | .faulted c => .fault (.faultedNoStep c)
  | .running =>
    match s.fetch with
    | none => .next (s.raise .malformedProgram)
    | some w => exec (decode w) s.advance

/-- `s` with the instruction word put at `(0, pc)`, where `step` fetches, and running, so that the next step runs exactly
it; it stands for the host's supply of a program at reset (R120; log entries 4 and 12). No fetch succeeds at the largest
index (R15), so there the finger is moved to 0. -/
def State.withFetchWord (s : State) (nbits w : Nat) : State :=
  let pc := if s.pc = 0xFFFFFFFF#32 then 0#32 else s.pc
  { s with mem := s.mem.placeWord pc (tableWord nbits w), pc := pc, status := .running }

end Sys2Proof.Machine
end

