-- ==== Sys2Proof/Machine/Run.lean ====
section
/-! DEFINITION. The run (R72, R73), and what the host observes of it (R131). -/

namespace Sys2Proof.Machine

/-- How a run that is given a number of steps comes out (R72, R73), with the state it ends in. -/
inductive RunEnd where
  | halted (s : State)
  | faulted (c : FaultCause) (s : State)
  | stuck (why : Fault) (s : State)
  | refused (why : Refusal) (s : State)
  | notFinished (s : State)
  deriving DecidableEq, Repr

/-- Repeats the step until the run is over, for at most `fuel` steps; a spent budget is reported as not finished (R72). -/
def run : Nat → State → RunEnd
  | fuel, s =>
    match s.status with
    | .halted => .halted s
    | .faulted c => .faulted c s
    | .running =>
      match fuel with
      | 0 => .notFinished s
      | k + 1 =>
        match step s with
        | .next t => run k t
        | .fault r => .stuck r s
        | .refused r => .refused r s

/-- The state a run ends in, or has got to. -/
def RunEnd.state : RunEnd → State
  | .halted s => s
  | .faulted _ s => s
  | .stuck _ s => s
  | .refused _ s => s
  | .notFinished s => s

/-- What the input source answers to one request (R96). -/
inductive InputAnswer where
  | byte (b : Byte)
  | exhausted
  deriving DecidableEq, Repr

/-- `Take()` as R96 writes its answer. -/
def State.answer (s : State) : InputAnswer :=
  match s.take with
  | some b => .byte b
  | none => .exhausted

/-- The answer to the request the next step makes of the input source; `none` where it makes none. IN asks once, and no
other instruction asks (R75, R95). -/
def State.request? (s : State) : Option InputAnswer :=
  match s.status, s.fetch with
  | .running, some w =>
    match decode w with
    | .input _ => some s.answer
    | .cmov _ _ _ | .aidx _ _ _ | .amend _ _ _ | .add _ _ _ | .mul _ _ _ | .div _ _ _ | .nand _ _ _ | .halt | .alloc _ _
    | .abandon _ | .output _ | .loadprog _ _ | .ortho _ _ | .nop14 | .nop15 => none
  | _, _ => none

/-- The requests that a run makes of the input source within so many steps, each with its answer, in order: those answered
`Exhausted` too, which leave no trace in the state (R73, R131 (b); log entry 16). -/
def requests : Nat → State → List InputAnswer
  | 0, _ => []
  | fuel + 1, s =>
    match step s with
    | .next t => s.request?.toList ++ requests fuel t
    | .fault _ => []
    | .refused _ => []

/-- What the host observes of a run (R131): the bytes emitted, the requests made of the input source with the answers it
gave, how many bytes were taken from it, and the status pair. -/
structure Observation where
  out     : List Byte
  answers : List InputAnswer
  taken   : Nat
  status  : Nat × Nat
  deriving DecidableEq, Repr

/-- What the host observes of the run from `s`, within so many steps. -/
def observe (fuel : Nat) (s : State) : Observation :=
  let t := (run fuel s).state
  { out := t.out, answers := requests fuel s, taken := t.inPos, status := t.status.hostPair }

end Sys2Proof.Machine
end

