-- ==== Sys2Proof/Safety.lean ====
section
/-! DEFINITION. The terms in which claims are stated: the invariants of the machine (R20 to R22), what a state must have
for storage to suffice (R45), what one instruction reads and writes (R12), what a frame is, and the sequences of
allocations of R93. -/

namespace Sys2Proof.Machine

/-! ### Invariants -/

/-- The invariants of the table and the pool: R22 (a) to (d), and the bound of R45 on the number of handles. -/
structure Memory.PoolOk (m : Memory) : Prop where
  /-- R22 (a) and (d). -/
  mem_pool_iff : ∀ h : Word, h ∈ m.pool ↔ h ≠ 0#32 ∧ m.seg[h.toNat]? = some none
  /-- R22 (b). -/
  nodup : m.pool.Nodup
  /-- R22 (c): `seg[0]` is a segment; with (a), 0 is not in the pool. -/
  zero_valid : m.valid 0#32 = true
  /-- R45. -/
  handles_fit : m.seg.length ≤ Config.maxHandles

/-- What every step keeps: memory is canonical, the table and the pool agree, and a finite input source has not been read
past its end (R96). -/
structure State.Inv (s : State) : Prop where
  mem_wf : s.mem.wf = true
  pool_ok : s.mem.PoolOk
  input_ok : s.config.input.endless = none → s.inPos ≤ s.config.input.bytes.length

/-- The words in use are within `CAPACITY_WORDS` (R45). -/
def State.WithinCapacity (s : State) : Prop := s.mem.fits s.config.capacity = true

/-- A handle is left to issue (R45, R93). -/
def Memory.HandleLeft (m : Memory) : Prop := m.pool ≠ [] ∨ m.seg.length < Config.maxHandles

/-- Storage suffices for memory of `words` words (R45). -/
def State.Room (s : State) (words : Nat) : Prop := ∀ limit, s.config.capacity = some limit → words ≤ limit

/-- The handle R93 issues next: the top of the pool, else the length of the table. -/
def Memory.nextHandle (m : Memory) : Word := m.pool.headD (BitVec.ofNat 32 m.seg.length)

/-- The input source has no byte left (R96). -/
def State.Exhausted (s : State) : Prop := s.take = none

/-! ### Frames -/

/-- From `s` to `t` nothing changes but the registers listed: every other register, the finger, memory as a whole and each
word of it, the status, and the environment's elements are as before. -/
structure RegFrame (s t : State) (written : List RegIdx) : Prop where
  regs : ∀ q, q ∉ written → t.reg q = s.reg q
  pc : t.pc = s.pc
  words : ∀ h i, t.mem.read h i = s.mem.read h i
  mem : t.mem = s.mem
  status : t.status = s.status
  out : t.out = s.out
  inPos : t.inPos = s.inPos
  config : t.config = s.config

/-- From `s` to `t` nothing changes but memory and the registers listed. -/
structure MemFrame (s t : State) (written : List RegIdx) : Prop where
  regs : ∀ q, q ∉ written → t.reg q = s.reg q
  pc : t.pc = s.pc
  status : t.status = s.status
  out : t.out = s.out
  inPos : t.inPos = s.inPos
  config : t.config = s.config

/-! ### What an instruction reads and writes -/

/-- The column "register written" of R12, in the state the instruction executes in. An instruction that faults writes
none (R106). -/
def regWritten (s : State) : Instr → Option RegIdx
  | .cmov a _ c => if s.reg c = 0#32 then none else some a
  | .aidx a b c => if (s.mem.read (s.reg b) (s.reg c)).isSome then some a else none
  | .amend _ _ _ => none
  | .add a _ _ => some a
  | .mul a _ _ => some a
  | .div a _ c => if s.reg c = 0#32 then none else some a
  | .nand a _ _ => some a
  | .halt => none
  | .alloc b _ => some b
  | .abandon _ => none
  | .output _ => none
  | .input c => some c
  | .loadprog _ _ => none
  | .ortho oa _ => some oa
  | .nop14 => none
  | .nop15 => none

/-- The column "registers read" of R12, in the state the instruction executes in. -/
def regsRead (s : State) : Instr → List RegIdx
  | .cmov _ b c => if s.reg c = 0#32 then [c] else [b, c]
  | .aidx _ b c => [b, c]
  | .amend a b c => [a, b, c]
  | .add _ b c => [b, c]
  | .mul _ b c => [b, c]
  | .div _ b c => [b, c]
  | .nand _ b c => [b, c]
  | .halt => []
  | .alloc _ c => [c]
  | .abandon c => [c]
  | .output c => [c]
  | .input _ => []
  | .loadprog b c => [b, c]
  | .ortho _ _ => []
  | .nop14 => []
  | .nop15 => []

/-- The bits of its word that an instruction depends on: the opcode field and the fields R55 lists as used; the others are
ignored (R56). -/
def usedBits : Instr → Word
  | .cmov _ _ _ | .aidx _ _ _ | .amend _ _ _ | .add _ _ _ | .mul _ _ _ | .div _ _ _ | .nand _ _ _ => 0xF00001FF#32
  | .alloc _ _ | .loadprog _ _ => 0xF000003F#32
  | .abandon _ | .output _ | .input _ => 0xF0000007#32
  | .ortho _ _ => 0xFFFFFFFF#32
  | .halt | .nop14 | .nop15 => 0xF0000000#32

/-! ### Sequences of instructions -/

/-- Executes ABANDON once for each handle of the list, in its order, the handle put into register 0 before it; `none` where
one does not complete with the machine still running. -/
def abandonEach : List Word → State → Option State
  | [], s => some s
  | h :: rest, s =>
    match exec (.abandon 0) (s.setReg 0 h) with
    | .next t => if t.status = .running then abandonEach rest t else none
    | _ => none

/-- Executes `ALLOC r1, r2` a number of times, and gives the handles received in `r1`, in the order received. -/
def allocEach : Nat → State → Option (List Word × State)
  | 0, s => some ([], s)
  | n + 1, s =>
    match exec (.alloc 1 2) s with
    | .next t => (allocEach n t).map (fun got => (t.reg 1 :: got.1, got.2))
    | _ => none

/-- `t` is reached from `s` by steps. -/
inductive Reaches : State → State → Prop where
  | refl (s : State) : Reaches s s
  | step {s t u : State} : step s = .next t → Reaches t u → Reaches s u

end Sys2Proof.Machine
end

