-- ==== Sys2Proof/Certificates/Slice0/Obligations.lean ====
section
/-! DEFINITION. The statements for the provers. In those about one instruction, `s` is the state the instruction executes
in, after FETCH and ADVANCE, so `s.pc` is already the index of the following word (R67); `StepRunsDecoded` says how a step
comes to that state. A fault is written as the record R106 describes: the state with its status changed. -/

open Sys2Proof Sys2Proof.Machine

/-! ### Encoding -/

/-- R60: decoding the word of an instruction gives the instruction back, for every instruction and all its operands. -/
def Obligations.DecodeEncodeRoundTrip : Prop := ∀ i : Instr, decode (encode i) = i

/-- R55, R56, R58: a word decodes to an instruction exactly when the bits this instruction uses are those of its encoding;
no other bit takes part. -/
def Obligations.DecodeExactlyWhenUsedBitsMatch : Prop :=
  ∀ (w : Word) (i : Instr), decode w = i ↔ w &&& usedBits i = encode i

/-- R60: the fields of an encoding are the ones encoded, in both formats; re-encoding a word of the orthography format
gives the word back, and re-encoding one of the standard format clears bits 27 to 9. -/
def Obligations.EncodingFieldsRoundTrip : Prop :=
  (∀ (op : BitVec 4) (a b c : RegIdx),
    encStd op a b c = BitVec.ofNat 32 (op.toNat * 2 ^ 28 + a.val * 2 ^ 6 + b.val * 2 ^ 3 + c.val) ∧
    opField (encStd op a b c) = op ∧ aField (encStd op a b c) = a ∧ bField (encStd op a b c) = b ∧
    cField (encStd op a b c) = c) ∧
  (∀ (oa : RegIdx) (imm : BitVec 25),
    encOrtho oa imm = BitVec.ofNat 32 (13 * 2 ^ 28 + oa.val * 2 ^ 25 + imm.toNat) ∧
    opField (encOrtho oa imm) = 13#4 ∧ oaField (encOrtho oa imm) = oa ∧ immField (encOrtho oa imm) = imm) ∧
  (∀ w : Word, opField w = 13#4 → encOrtho (oaField w) (immField w) = w) ∧
  (∀ w : Word, encStd (opField w) (aField w) (bField w) (cField w) = w &&& 0xF00001FF#32)

/-- Words of the table V-DEC of 95_test_vectors.md decode to the instructions they stand for. -/
def Obligations.SpecWordsDecode : Prop :=
  decode 0x000001A2#32 = .cmov 6 4 2 ∧ decode 0x10000153#32 = .aidx 5 2 3 ∧ decode 0x2000015C#32 = .amend 5 3 4 ∧
  decode 0x3FFFFE53#32 = .add 1 2 3 ∧ decode 0x40000093#32 = .mul 2 2 3 ∧ decode 0x50000052#32 = .div 1 2 2 ∧
  decode 0x600000C0#32 = .nand 3 0 0 ∧ decode 0x7FFFFFFF#32 = .halt ∧ decode 0x800001EC#32 = .alloc 5 4 ∧
  decode 0x90000002#32 = .abandon 2 ∧ decode 0xA0000003#32 = .output 3 ∧ decode 0xB0000001#32 = .input 1 ∧
  decode 0xC0000028#32 = .loadprog 5 0 ∧ decode 0xD812D687#32 = .ortho 4 1234567 ∧ decode 0xD0000040#32 = .ortho 0 64 ∧
  decode 0xEFFFFFFF#32 = .nop14 ∧ decode 0xFFFFFFFF#32 = .nop15

/-- R59: a line assembles exactly when it is well formed, and the line of an instruction assembles to its encoding. -/
def Obligations.AssemblerAcceptsExactlyWellFormed : Prop :=
  (∀ l : AsmLine, (∃ w, l.assemble = some w) ↔ l.wf = true) ∧
  (∀ i : Instr, i.toAsm.instr? = some i ∧ i.toAsm.assemble = some (encode i))

/-! ### One statement for each instruction: its encoding, that it completes, its result, its frame, its faults -/

/-- R80. -/
def Obligations.CmovMovesOnNonZero : Prop :=
  ∀ (a b c : RegIdx) (s : State),
    encode (.cmov a b c) = (BitVec.ofNat 32 a.val <<< 6) ||| (BitVec.ofNat 32 b.val <<< 3) ||| BitVec.ofNat 32 c.val ∧
    (s.reg c ≠ 0#32 → ∃ t, exec (.cmov a b c) s = .next t ∧ t.reg a = s.reg b ∧ RegFrame s t [a]) ∧
    (s.reg c = 0#32 → ∃ t, exec (.cmov a b c) s = .next t ∧ t = s)

/-- R81. -/
def Obligations.OrthoLoadsImmediate : Prop :=
  ∀ (oa : RegIdx) (imm : BitVec 25) (s : State),
    encode (.ortho oa imm) = 0xD0000000#32 ||| (BitVec.ofNat 32 oa.val <<< 25) ||| BitVec.ofNat 32 imm.toNat ∧
    ∃ t, exec (.ortho oa imm) s = .next t ∧ (t.reg oa).toNat = imm.toNat ∧ RegFrame s t [oa]

/-- R82, with the handle checked before the index (R108). -/
def Obligations.AidxReadsWord : Prop :=
  ∀ (a b c : RegIdx) (s : State),
    encode (.aidx a b c) =
      0x10000000#32 ||| (BitVec.ofNat 32 a.val <<< 6) ||| (BitVec.ofNat 32 b.val <<< 3) ||| BitVec.ofNat 32 c.val ∧
    (∀ g, s.mem.segment? (s.reg b) = some g → (s.reg c).toNat < g.len.toNat →
      ∃ t, exec (.aidx a b c) s = .next t ∧ some (t.reg a) = s.mem.read (s.reg b) (s.reg c) ∧
        t.reg a = g.word (s.reg c).toNat ∧ RegFrame s t [a]) ∧
    (s.mem.valid (s.reg b) = false → exec (.aidx a b c) s = .next { s with status := .faulted .invalidHandle }) ∧
    (∀ g, s.mem.segment? (s.reg b) = some g → g.len.toNat ≤ (s.reg c).toNat →
      exec (.aidx a b c) s = .next { s with status := .faulted .indexOutOfBounds })

/-- R83: the word at the address (`x[A]`, `x[B]`) becomes `x[C]`; every other word of every segment, every length, the
table's size and the pool are as before. -/
def Obligations.AmendStoresWord : Prop :=
  ∀ (a b c : RegIdx) (s : State),
    encode (.amend a b c) =
      0x20000000#32 ||| (BitVec.ofNat 32 a.val <<< 6) ||| (BitVec.ofNat 32 b.val <<< 3) ||| BitVec.ofNat 32 c.val ∧
    (∀ g, s.mem.segment? (s.reg a) = some g → (s.reg b).toNat < g.len.toNat →
      ∃ t, exec (.amend a b c) s = .next t ∧ t.mem.read (s.reg a) (s.reg b) = some (s.reg c) ∧
        (∀ h i, ¬ (h = s.reg a ∧ i = s.reg b) → t.mem.read h i = s.mem.read h i) ∧
        (∀ h, (t.mem.segment? h).map Segment.len = (s.mem.segment? h).map Segment.len) ∧
        t.mem.seg.length = s.mem.seg.length ∧ t.mem.pool = s.mem.pool ∧ MemFrame s t []) ∧
    (s.mem.valid (s.reg a) = false → exec (.amend a b c) s = .next { s with status := .faulted .invalidHandle }) ∧
    (∀ g, s.mem.segment? (s.reg a) = some g → g.len.toNat ≤ (s.reg b).toNat →
      exec (.amend a b c) s = .next { s with status := .faulted .indexOutOfBounds })

/-- R84. -/
def Obligations.AddIsSumModulo : Prop :=
  ∀ (a b c : RegIdx) (s : State),
    encode (.add a b c) =
      0x30000000#32 ||| (BitVec.ofNat 32 a.val <<< 6) ||| (BitVec.ofNat 32 b.val <<< 3) ||| BitVec.ofNat 32 c.val ∧
    ∃ t, exec (.add a b c) s = .next t ∧ (t.reg a).toNat = ((s.reg b).toNat + (s.reg c).toNat) % 2 ^ 32 ∧
      RegFrame s t [a]

/-- R85. -/
def Obligations.MulIsProductModulo : Prop :=
  ∀ (a b c : RegIdx) (s : State),
    encode (.mul a b c) =
      0x40000000#32 ||| (BitVec.ofNat 32 a.val <<< 6) ||| (BitVec.ofNat 32 b.val <<< 3) ||| BitVec.ofNat 32 c.val ∧
    ∃ t, exec (.mul a b c) s = .next t ∧ (t.reg a).toNat = ((s.reg b).toNat * (s.reg c).toNat) % 2 ^ 32 ∧
      RegFrame s t [a]

/-- R86: the floor of the exact quotient, which is never larger than the dividend; a zero divisor faults for every
dividend. -/
def Obligations.DivIsFloorQuotient : Prop :=
  ∀ (a b c : RegIdx) (s : State),
    encode (.div a b c) =
      0x50000000#32 ||| (BitVec.ofNat 32 a.val <<< 6) ||| (BitVec.ofNat 32 b.val <<< 3) ||| BitVec.ofNat 32 c.val ∧
    (s.reg c ≠ 0#32 → ∃ t, exec (.div a b c) s = .next t ∧
      (t.reg a).toNat = (s.reg b).toNat / (s.reg c).toNat ∧ (t.reg a).toNat ≤ (s.reg b).toNat ∧ RegFrame s t [a]) ∧
    (s.reg c = 0#32 → exec (.div a b c) s = .next { s with status := .faulted .divideByZero })

/-- R88, bit by bit. -/
def Obligations.NandIsBitwise : Prop :=
  ∀ (a b c : RegIdx) (s : State),
    encode (.nand a b c) =
      0x60000000#32 ||| (BitVec.ofNat 32 a.val <<< 6) ||| (BitVec.ofNat 32 b.val <<< 3) ||| BitVec.ofNat 32 c.val ∧
    ∃ t, exec (.nand a b c) s = .next t ∧
      (∀ k, k < 32 → (t.reg a).getLsbD k = !((s.reg b).getLsbD k && (s.reg c).getLsbD k)) ∧ RegFrame s t [a]

/-- R89: any word with opcode 7 halts, and nothing but the status changes. -/
def Obligations.HaltEndsTheRun : Prop :=
  encode .halt = 0x70000000#32 ∧ (∀ w : Word, w.extractLsb' 28 4 = 7#4 → decode w = .halt) ∧
  ∀ s : State, ∃ t, exec .halt s = .next t ∧ t.status = .halted ∧ t = { s with status := .halted } ∧
    ∀ u, step t ≠ .next u

/-- R90 and R93: with the pool in order, a handle left and room for the words, ALLOC issues the top of the pool or else the
table's length, a handle that is not 0 and not allocated; its segment has `x[C]` words, all zero; every other segment is
as before. -/
def Obligations.AllocCreatesZeroSegment : Prop :=
  ∀ (b c : RegIdx) (s : State),
    encode (.alloc b c) = 0x80000000#32 ||| (BitVec.ofNat 32 b.val <<< 3) ||| BitVec.ofNat 32 c.val ∧
    (s.mem.PoolOk → s.mem.HandleLeft → s.Room (s.mem.totalWords + (s.reg c).toNat) →
      ∃ t, exec (.alloc b c) s = .next t ∧ t.reg b = s.mem.nextHandle ∧
        s.mem.nextHandle ≠ 0#32 ∧ s.mem.valid s.mem.nextHandle = false ∧
        t.mem.valid s.mem.nextHandle = true ∧
        (∀ i : Word, t.mem.read s.mem.nextHandle i = if i.toNat < (s.reg c).toNat then some 0#32 else none) ∧
        (∀ h, h ≠ s.mem.nextHandle → t.mem.segment? h = s.mem.segment? h) ∧
        (∀ h i, h ≠ s.mem.nextHandle → t.mem.read h i = s.mem.read h i) ∧
        t.mem.pool = s.mem.pool.tail ∧
        t.mem.seg.length = (if s.mem.pool = [] then s.mem.seg.length + 1 else s.mem.seg.length) ∧ MemFrame s t [b])

/-- R91. -/
def Obligations.AbandonFreesSegment : Prop :=
  ∀ (c : RegIdx) (s : State),
    encode (.abandon c) = 0x90000000#32 ||| BitVec.ofNat 32 c.val ∧
    (s.reg c ≠ 0#32 → s.mem.valid (s.reg c) = true →
      ∃ t, exec (.abandon c) s = .next t ∧ t.mem.seg[(s.reg c).toNat]? = some none ∧ t.mem.valid (s.reg c) = false ∧
        t.mem.pool = s.reg c :: s.mem.pool ∧ t.mem.seg.length = s.mem.seg.length ∧
        (∀ h, h ≠ s.reg c → t.mem.segment? h = s.mem.segment? h) ∧
        (∀ h i, h ≠ s.reg c → t.mem.read h i = s.mem.read h i) ∧ MemFrame s t []) ∧
    (s.reg c = 0#32 ∨ s.mem.valid (s.reg c) = false →
      exec (.abandon c) s = .next { s with status := .faulted .invalidHandle })

/-- R92: with handle 0 a plain jump; with another allocated handle, where the copy fits, segment 0 becomes the segment
named, which keeps its own; an invalid handle faults. The target is not checked. How much room the copy needs under a finite
`CAPACITY_WORDS` (R45) is log entry 8: the old segment 0 no longer counts. -/
def Obligations.LoadprogReplacesSegmentZero : Prop :=
  ∀ (b c : RegIdx) (s : State),
    encode (.loadprog b c) = 0xC0000000#32 ||| (BitVec.ofNat 32 b.val <<< 3) ||| BitVec.ofNat 32 c.val ∧
    (s.reg b = 0#32 → s.mem.valid 0#32 = true →
      ∃ t, exec (.loadprog b c) s = .next t ∧ t.pc = s.reg c ∧ t = { s with pc := s.reg c }) ∧
    (∀ g g0, s.reg b ≠ 0#32 → s.mem.segment? (s.reg b) = some g → s.mem.segment? 0#32 = some g0 →
      s.Room (s.mem.totalWords - g0.len.toNat + g.len.toNat) →
      ∃ t, exec (.loadprog b c) s = .next t ∧ t.pc = s.reg c ∧ t.mem.segment? 0#32 = some g ∧
        (∀ i, t.mem.read 0#32 i = s.mem.read (s.reg b) i) ∧
        (∀ h, h ≠ 0#32 → t.mem.segment? h = s.mem.segment? h) ∧ (∀ h i, h ≠ 0#32 → t.mem.read h i = s.mem.read h i) ∧
        t.mem.pool = s.mem.pool ∧ t.mem.seg.length = s.mem.seg.length ∧ MemFrame s { t with pc := s.pc } []) ∧
    (s.mem.valid (s.reg b) = false → exec (.loadprog b c) s = .next { s with status := .faulted .invalidHandle })

/-- R94. -/
def Obligations.OutputEmitsOneByte : Prop :=
  ∀ (c : RegIdx) (s : State),
    encode (.output c) = 0xA0000000#32 ||| BitVec.ofNat 32 c.val ∧
    ((s.reg c).toNat ≤ 255 → ∃ t byte, exec (.output c) s = .next t ∧ byte.toNat = (s.reg c).toNat ∧
      t.out = s.out ++ [byte] ∧ t = { s with out := s.out ++ [byte] } ∧ RegFrame s { t with out := s.out } []) ∧
    (255 < (s.reg c).toNat → exec (.output c) s = .next { s with status := .faulted .invalidOutputValue })

/-- R95: a byte zero-extended and counted, or the sentinel and nothing counted. -/
def Obligations.InputReceivesByteOrSentinel : Prop :=
  ∀ (c : RegIdx) (s : State),
    encode (.input c) = 0xB0000000#32 ||| BitVec.ofNat 32 c.val ∧
    (∀ byte, s.take = some byte → ∃ t, exec (.input c) s = .next t ∧ (t.reg c).toNat = byte.toNat ∧
      t.inPos = s.inPos + 1 ∧ RegFrame s { t with inPos := s.inPos } [c]) ∧
    (s.take = none → ∃ t, exec (.input c) s = .next t ∧ t.reg c = 0xFFFFFFFF#32 ∧ RegFrame s t [c])

/-- R98: any word with opcode 14 changes nothing. -/
def Obligations.Nop14ChangesNothing : Prop :=
  encode .nop14 = 0xE0000000#32 ∧ (∀ w : Word, w.extractLsb' 28 4 = 14#4 → decode w = .nop14) ∧
  ∀ s : State, ∃ t, exec .nop14 s = .next t ∧ t = s

/-- R99: any word with opcode 15 changes nothing. -/
def Obligations.Nop15ChangesNothing : Prop :=
  encode .nop15 = 0xF0000000#32 ∧ (∀ w : Word, w.extractLsb' 28 4 = 15#4 → decode w = .nop15) ∧
  ∀ s : State, ∃ t, exec .nop15 s = .next t ∧ t = s

/-! ### The loop -/

/-- R65 to R69: a running machine whose finger is on a word executes the instruction the word decodes to, in the state with
the finger one further. -/
def Obligations.StepRunsDecoded : Prop :=
  ∀ (s : State) (w : Word), s.status = .running → s.mem.read 0#32 s.pc = some w →
    step s = exec (decode w) { s with pc := s.pc + 1#32 }

/-- R71: the transitions of the run status. A step from `RUNNING` without one of the three events ends in `RUNNING`, since
the second clause says when it ends in another status. -/
def Obligations.StatusTransitions : Prop :=
  (∀ s : State, s.status ≠ .running → ∀ t, step s ≠ .next t) ∧
  (∀ s : State, s.status = .running → s.fetch = none → ∃ t, step s = .next t ∧ t.status = .faulted .malformedProgram) ∧
  (∀ (s : State) (w : Word), s.status = .running → s.fetch = some w → decode w = .halt →
    ∃ t, step s = .next t ∧ t.status = .halted) ∧
  (∀ s t : State, step s = .next t →
    s.status = .running ∧ (t.status = .faulted .malformedProgram ↔ s.fetch = none) ∧
    (t.status = .halted ↔ ∃ w, s.fetch = some w ∧ decode w = .halt) ∧
    (∀ c, t.status = .faulted c → c ≠ .malformedProgram →
      ∃ w, s.fetch = some w ∧ exec (decode w) s.advance = .next t ∧ t = s.advance.raise c)) ∧
  (∀ (program : List Word) (config : RunConfig) (s : State), State.boot program config = some s → s.status = .running)

/-- R14: where each step leaves the finger: as it was where the fetch fails, at `x[C]` after a LOADPROG that does not fault,
one further after every other instruction and after a fault in EXECUTE; and HALT leaves the status `HALTED`. -/
def Obligations.FingerAfterStep : Prop :=
  ∀ s t : State, step s = .next t →
    (s.fetch = none ∧ t.pc = s.pc) ∨
    ∃ w, s.fetch = some w ∧
      ((∃ b c, decode w = .loadprog b c ∧ t.status = .running ∧ t.pc = s.reg c) ∨
       (((∀ b c, decode w ≠ .loadprog b c) ∨ t.status ≠ .running) ∧ t.pc = s.pc + 1#32 ∧
          (decode w = .halt → t.status = .halted)))

/-- R15: the finger does not wrap where a fetch succeeds. -/
def Obligations.FingerNeverWraps : Prop :=
  ∀ (s : State) (w : Word), s.fetch = some w → (s.advance.pc).toNat = s.pc.toNat + 1

/-! ### Faults -/

/-- R106: the step that faults changes the status, and, for the four faults of EXECUTE, advances the finger; it changes
nothing else, and no step follows. -/
def Obligations.FaultEntry : Prop :=
  ∀ (s t : State) (c : FaultCause), step s = .next t → t.status = .faulted c →
    t = { s with status := .faulted c, pc := if c = .malformedProgram then s.pc else s.pc + 1#32 } ∧
    ∀ u, step t ≠ .next u

/-- R105: `MalformedProgram` is raised exactly when the finger is at or past the end of segment 0. -/
def Obligations.MalformedProgramExactly : Prop :=
  ∀ (s : State) (g : Segment), s.status = .running → s.mem.segment? 0#32 = some g →
    ((∃ t, step s = .next t ∧ t.status = .faulted .malformedProgram) ↔ g.len.toNat ≤ s.pc.toNat)

/-- R102: `DivideByZero` is raised by DIV with a zero divisor, and by nothing else. -/
def Obligations.DivideByZeroExactly : Prop :=
  ∀ (i : Instr) (s : State), s.status = .running →
    ((∃ t, exec i s = .next t ∧ t.status = .faulted .divideByZero) ↔ ∃ a b c, i = .div a b c ∧ s.reg c = 0#32)

/-- R103: who raises `InvalidHandle`, and when; a handle is not valid when it was never allocated or is freed, and handle
0 always is (so that only ABANDON raises the fault for it). -/
def Obligations.InvalidHandleExactly : Prop :=
  (∀ (i : Instr) (s : State), s.status = .running →
    ((∃ t, exec i s = .next t ∧ t.status = .faulted .invalidHandle) ↔
      ((∃ a b c, i = .aidx a b c ∧ s.mem.valid (s.reg b) = false) ∨
       (∃ a b c, i = .amend a b c ∧ s.mem.valid (s.reg a) = false) ∨
       (∃ b c, i = .loadprog b c ∧ s.mem.valid (s.reg b) = false) ∨
       (∃ c, i = .abandon c ∧ (s.reg c = 0#32 ∨ s.mem.valid (s.reg c) = false))))) ∧
  (∀ (m : Memory) (h : Word), m.valid h = false ↔ m.seg.length ≤ h.toNat ∨ m.seg[h.toNat]? = some none) ∧
  (∀ (program : List Word) (config : RunConfig) (s t : State), State.boot program config = some s → Reaches s t →
    t.mem.valid 0#32 = true)

/-- R104: who raises `IndexOutOfBounds`, and when. -/
def Obligations.IndexOutOfBoundsExactly : Prop :=
  ∀ (i : Instr) (s : State), s.status = .running →
    ((∃ t, exec i s = .next t ∧ t.status = .faulted .indexOutOfBounds) ↔
      ((∃ a b c g, i = .aidx a b c ∧ s.mem.segment? (s.reg b) = some g ∧ g.len.toNat ≤ (s.reg c).toNat) ∨
       (∃ a b c g, i = .amend a b c ∧ s.mem.segment? (s.reg a) = some g ∧ g.len.toNat ≤ (s.reg b).toNat)))

/-- R109: `InvalidOutputValue` is raised by OUT of a value above 255, no byte being emitted, and by nothing else. -/
def Obligations.InvalidOutputValueExactly : Prop :=
  ∀ (i : Instr) (s : State), s.status = .running →
    ((∃ t, exec i s = .next t ∧ t.status = .faulted .invalidOutputValue) ↔ ∃ c, i = .output c ∧ 255 < (s.reg c).toNat) ∧
    (∀ t, exec i s = .next t → t.status = .faulted .invalidOutputValue → t.out = s.out)

/-- R114: which instruction can raise which fault in EXECUTE; any step can raise `MalformedProgram` in FETCH. -/
def Obligations.FaultsByInstruction : Prop :=
  (∀ (i : Instr) (s t : State) (c : FaultCause), s.status = .running → exec i s = .next t → t.status = .faulted c →
    match i with
    | .div _ _ _ => c = .divideByZero
    | .aidx _ _ _ | .amend _ _ _ => c = .invalidHandle ∨ c = .indexOutOfBounds
    | .abandon _ | .loadprog _ _ => c = .invalidHandle
    | .output _ => c = .invalidOutputValue
    | .cmov _ _ _ | .add _ _ _ | .mul _ _ _ | .nand _ _ _ | .halt | .alloc _ _ | .input _ | .ortho _ _ | .nop14
    | .nop15 => False) ∧
  (∀ s : State, s.status = .running → s.fetch = none → step s = .next { s with status := .faulted .malformedProgram })

/-! ### Storage -/

/-- An instruction leaves the machine stuck exactly when it is an ALLOC without a handle left or without room for its words,
or a LOADPROG without room for its copy (R45). That a stuck machine is a `Fault` is log entry 2; that the words in use after
the whole operation are what is compared, the old segment 0 no longer counting, and that a state already over its capacity
is stuck even at an ALLOC of no words, is log entry 8. -/
def Obligations.StuckExactly : Prop :=
  ∀ (i : Instr) (s : State) (g0 : Segment), s.mem.PoolOk → s.mem.segment? 0#32 = some g0 →
    ((∃ r, exec i s = .fault r) ↔
      ((∃ b c, i = .alloc b c ∧
          (¬ s.mem.HandleLeft ∨ ¬ s.Room (s.mem.totalWords + (s.reg c).toNat))) ∨
       (∃ b c g, i = .loadprog b c ∧ s.reg b ≠ 0#32 ∧ s.mem.segment? (s.reg b) = some g ∧
          ¬ s.Room (s.mem.totalWords - g0.len.toNat + g.len.toNat))))

/-- R45, R69: with unbounded storage and a handle left, a running machine always takes its step. -/
def Obligations.UnboundedMachineGoesOn : Prop :=
  ∀ s : State, s.status = .running → s.config.capacity = none → s.mem.HandleLeft → ∃ t, step s = .next t

/-- R53, R57: no instruction and no step is refused. -/
def Obligations.NothingIsRefused : Prop :=
  (∀ (i : Instr) (s : State) (r : Refusal), exec i s ≠ .refused r) ∧ (∀ (s : State) (r : Refusal), step s ≠ .refused r)

/-- R45: a step never takes more storage than `CAPACITY_WORDS`. -/
def Obligations.CapacityKept : Prop :=
  ∀ s t : State, s.Inv → s.WithinCapacity → step s = .next t → t.WithinCapacity

/-! ### Segment memory -/

/-- R32, R34, R35: a word can be read exactly where the table has a segment that is longer than the index. -/
def Obligations.ReadDefinedExactlyInBounds : Prop :=
  ∀ (m : Memory) (h i : Word),
    (∃ v, m.read h i = some v) ↔ ∃ g, m.seg[h.toNat]? = some (some g) ∧ i.toNat < g.len.toNat

/-- R33: after a write the word reads as written; every other word, every length, the table and the pool are as before;
writing the same word again changes nothing. -/
def Obligations.MemWriteLaw : Prop :=
  ∀ (m : Memory) (h i v : Word) (g : Segment), m.segment? h = some g → i.toNat < g.len.toNat →
    (m.write h g i v).read h i = some v ∧
    (∀ k j, ¬ (k = h ∧ j = i) → (m.write h g i v).read k j = m.read k j) ∧
    (∀ k, ((m.write h g i v).segment? k).map Segment.len = (m.segment? k).map Segment.len) ∧
    (m.write h g i v).seg.length = m.seg.length ∧ (m.write h g i v).pool = m.pool ∧
    ∀ g', (m.write h g i v).segment? h = some g' → (m.write h g i v).write h g' i v = m.write h g i v

/-- R44: a store through one handle changes no word seen through another; and after LOADPROG the new segment 0 and its
source are two segments: a store into either leaves the other. A segment created under a handle, reused or not, has the
length asked for and no word but zero. -/
def Obligations.SegmentsNeverAlias : Prop :=
  (∀ (a b c : RegIdx) (s t : State) (h i : Word), exec (.amend a b c) s = .next t → h ≠ s.reg a →
    t.mem.read h i = s.mem.read h i) ∧
  (∀ (b c x y z : RegIdx) (s t u v : State), s.status = .running → s.mem.valid 0#32 = true → s.reg b ≠ 0#32 →
    exec (.loadprog b c) s = .next t → t.status = .running → u.mem = t.mem → exec (.amend x y z) u = .next v →
    (u.reg x = s.reg b → ∀ i, v.mem.read 0#32 i = s.mem.read (s.reg b) i) ∧
    (u.reg x = 0#32 → ∀ i, v.mem.read (s.reg b) i = s.mem.read (s.reg b) i)) ∧
  (∀ (b c : RegIdx) (s t : State), s.mem.PoolOk → exec (.alloc b c) s = .next t →
    (t.mem.segment? (t.reg b)).map Segment.len = some (s.reg c) ∧ ∀ i v, t.mem.read (t.reg b) i = some v → v = 0#32)

/-- R43: a word stored where the finger stands is the one the next step executes; an instruction that overwrites its own
word completes as the one fetched; and after LOADPROG the next fetch reads the segment loaded. -/
def Obligations.StoreSeenByNextFetch : Prop :=
  (∀ (a b c : RegIdx) (s : State), s.status = .running → (∃ w, s.fetch = some w) → s.reg a = 0#32 → s.reg b = s.pc →
    ∃ t, exec (.amend a b c) s = .next t ∧ step t = exec (decode (s.reg c)) { t with pc := s.pc + 1#32 }) ∧
  (∀ (a b c : RegIdx) (s : State) (w : Word), s.status = .running → s.fetch = some w → decode w = .amend a b c →
    s.reg a = 0#32 → s.reg b = s.pc →
    ∃ t, step s = .next t ∧ t.mem.read 0#32 s.pc = some (s.reg c) ∧ t.status = .running ∧ t.pc = s.pc + 1#32) ∧
  (∀ (b c : RegIdx) (s t : State), s.status = .running → s.mem.valid 0#32 = true → exec (.loadprog b c) s = .next t →
    t.status = .running → t.fetch = s.mem.read (s.reg b) (s.reg c))

/-- R93, S4 of 95_test_vectors.md: handles abandoned one after another come back from the next allocations in the reverse
of the order in which they were abandoned, and the pool is then as it was. `s.reg 2` is the length asked for each time. -/
def Obligations.HandleReuseIsAStack : Prop :=
  ∀ (handles : List Word) (s : State), s.Inv → s.status = .running → s.config.capacity = none → handles.Nodup →
    (∀ h ∈ handles, h ≠ 0#32 ∧ s.mem.valid h = true) →
    ∃ t u, abandonEach handles s = some t ∧ allocEach handles.length t = some (handles.reverse, u) ∧
      u.mem.pool = s.mem.pool ∧ u.mem.seg.length = s.mem.seg.length ∧
      (∀ h, h ∉ handles → u.mem.segment? h = s.mem.segment? h)

/-- R19, R33, R90, R92: the segments of the model (log entry 6) are the sequences of words of R19: a new segment is so many zeros, a write
replaces one element, a segment made from words holds them, and the length never changes. -/
def Obligations.SegmentRefinesWordSequence : Prop :=
  (∀ n : Word, (Segment.zeros n).words = List.replicate n.toNat 0#32) ∧
  (∀ (g : Segment) (i : Nat) (v : Word), i < g.len.toNat → (g.write i v).words = g.words.set i v) ∧
  (∀ ws : List Word, ws.length < Config.programLimit → (Segment.ofWords ws).words = ws) ∧
  (∀ (g : Segment) (i : Nat), i < g.len.toNat → g.words[i]? = some (g.word i)) ∧
  (∀ g : Segment, g.words.length = g.len.toNat)

/-- The canonical form: two segments in it that hold the same words are equal (log entry 6). -/
def Obligations.EqualWordsEqualSegments : Prop :=
  ∀ g g' : Segment, g.wf = true → g'.wf = true → g.words = g'.words → g = g'

/-! ### Invariants and whole-machine rules -/

/-- R22: the invariants of the table and the pool, with the canonical form and the bound of the input position, hold after
reset with any program, and every step keeps them. -/
def Obligations.InvariantsKept : Prop :=
  (∀ (program : List Word) (config : RunConfig) (s : State), State.boot program config = some s → s.Inv) ∧
  (∀ s t : State, s.Inv → step s = .next t → t.Inv)

/-- The invariants hold in `State.reset` (its empty program and empty input are the model's choice, log entry 4). -/
def Obligations.ResetMeetsInvariants : Prop := State.reset.Inv ∧ State.reset.WithinCapacity

/-- R20: the table only grows, by at most one entry a step, no entry is removed, and handle 0 keeps a segment. -/
def Obligations.TableOnlyGrows : Prop :=
  ∀ s t : State, s.Inv → step s = .next t →
    s.mem.seg.length ≤ t.mem.seg.length ∧ t.mem.seg.length ≤ s.mem.seg.length + 1 ∧ t.mem.valid 0#32 = true

/-- R12: an instruction changes only the register listed as written for it, and what it does depends on the registers
listed as read and on no other: with the others set at will, it has the same outcome, the same effect beside the register
file, and writes the same value. -/
def Obligations.RegisterUseAsListed : Prop :=
  ∀ (i : Instr) (s : State) (others : Vector Word Config.numRegs), (∀ q ∈ regsRead s i, others[q] = s.reg q) →
    (∀ t, exec i s = .next t → ∃ t', exec i { s with regs := others } = .next t' ∧ { t' with regs := t.regs } = t ∧
      ∀ q, t'.reg q = if regWritten s i = some q then t.reg q else others[q]) ∧
    (∀ r, exec i s = .fault r → exec i { s with regs := others } = .fault r)

/-- R49: only AMEND, ALLOC, ABANDON and LOADPROG change segment memory. -/
def Obligations.MemoryChangedByFourInstructions : Prop :=
  ∀ s t : State, step s = .next t → t.mem ≠ s.mem →
    ∃ w, s.fetch = some w ∧ ((∃ a b c, decode w = .amend a b c) ∨ (∃ b c, decode w = .alloc b c) ∨
      (∃ c, decode w = .abandon c) ∨ (∃ b c, decode w = .loadprog b c))

/-- R23, R94, R95, R107: a step adds at most one byte to `out`, and only in an OUT; it counts at most one byte taken, and
only in an IN; nothing emitted is taken back. R10, R96: the parameters of the run, which the model keeps in `config` (log
entry 3), never change. -/
def Obligations.EnvironmentOnlyThroughInAndOut : Prop :=
  ∀ s t : State, step s = .next t →
    t.config = s.config ∧
    (t.out = s.out ∨ ∃ w c byte, s.fetch = some w ∧ decode w = .output c ∧ t.out = s.out ++ [byte]) ∧
    (t.inPos = s.inPos ∨ ∃ w c, s.fetch = some w ∧ decode w = .input c ∧ t.inPos = s.inPos + 1)

/-- R23, R75: no instruction reads `out`, and no instruction but IN depends on the input source or on how much of it was
taken. -/
def Obligations.EnvironmentNotRead : Prop :=
  (∀ (i : Instr) (s t : State) (before : List Byte), exec i s = .next t →
    exec i { s with out := before ++ s.out } = .next { t with out := before ++ t.out }) ∧
  (∀ (i : Instr) (s t : State) (source : InputSource) (taken : Nat), (∀ c, i ≠ .input c) → exec i s = .next t →
    exec i { s with config := { s.config with input := source }, inPos := taken } =
      .next { t with config := { t.config with input := source }, inPos := taken })

/-- R96: the next answer of the source is byte `in_pos` of `INPUT`, or `Exhausted` once a finite `INPUT` is used up; and
exhaustion is for ever. That the answer is `Exhausted` also with `in_pos` beyond the end, where no run comes, is log entry
17; the endless source, which is never exhausted, is that of log entry 5. -/
def Obligations.ExhaustionIsPermanent : Prop :=
  (∀ s : State, s.config.input.endless = none → s.take = s.config.input.bytes[s.inPos]?) ∧
  (∀ (s : State) (source : Nat), s.config.input.endless = some source → ¬ s.Exhausted) ∧
  (∀ s t : State, Reaches s t → s.Exhausted → t.Exhausted)

/-! ### Reset, the image, the host's view, the run -/

/-- R26, R120: reset with a program of fewer than 2^32 words. That a longer program has no reset state is log entry 9 (D1,
U15). -/
def Obligations.BootGivesResetState : Prop :=
  ∀ (program : List Word) (config : RunConfig),
    (program.length < 2 ^ 32 → ∃ s, State.boot program config = some s ∧
      (∀ q, s.reg q = 0#32) ∧ s.pc = 0#32 ∧ s.mem.seg.length = 1 ∧
      (∀ i : Word, s.mem.read 0#32 i = program[i.toNat]?) ∧
      (∃ g, s.mem.segment? 0#32 = some g ∧ g.len.toNat = program.length) ∧
      s.mem.pool = [] ∧ s.status = .running ∧ s.out = [] ∧ s.inPos = 0) ∧
    (2 ^ 32 ≤ program.length → State.boot program config = none)

/-- `State.reset` is the reset with the empty program and the parameters of log entry 4, which are the model's choice; its
first step faults, as R121 says of an empty program. A reset keeps the parameters it is given in `config` (log entry 3). -/
def Obligations.ResetIsBootOfEmptyProgram : Prop :=
  (∀ (program : List Word) (config : RunConfig) (s : State), State.boot program config = some s → s.config = config) ∧
  State.boot [] RunConfig.default = some State.reset ∧
  step State.reset = .next { State.reset with status := .faulted .malformedProgram }

/-- R46: word `k` of an image is made of its bytes `4k` to `4k + 3`, the most significant first, and a trailing partial
word is dropped. -/
def Obligations.ImageWordsBigEndian : Prop :=
  ∀ image : List Byte, (imageWords image).length = image.length / 4 ∧
    ∀ k, 4 * k + 3 < image.length → ∃ w, (imageWords image)[k]? = some w ∧
      w.toNat = (image.getD (4 * k) 0#8).toNat * 2 ^ 24 + (image.getD (4 * k + 1) 0#8).toNat * 2 ^ 16 +
        (image.getD (4 * k + 2) 0#8).toNat * 2 ^ 8 + (image.getD (4 * k + 3) 0#8).toNat

/-- R101: the host's pair has the numbers of the rule, tells every status from every other, and its cause is non-zero
exactly when the machine has faulted. -/
def Obligations.StatusPairDistinguishes : Prop :=
  [RunStatus.running, .halted, .faulted .divideByZero, .faulted .invalidHandle, .faulted .indexOutOfBounds,
    .faulted .invalidOutputValue, .faulted .malformedProgram].map RunStatus.hostPair =
      [(0, 0), (1, 0), (2, 1), (2, 2), (2, 3), (2, 4), (2, 5)] ∧
  (∀ p q : RunStatus, p.hostPair = q.hostPair → p = q) ∧
  (∀ p : RunStatus, p.hostPair.2 ≠ 0 ↔ p.hostPair.1 = 2)

/-- R72: a run that is over is over with every larger budget too, with the same end. -/
def Obligations.LargerBudgetSameEnd : Prop :=
  ∀ (n k : Nat) (s : State), (∀ t, run n s ≠ .notFinished t) → run (n + k) s = run n s

/-- R72, R73: the end a run reports is the status of a state that steps reach; a spent budget is reported as not finished,
never as a halt or a fault. -/
def Obligations.RunReportsItsEnd : Prop :=
  ∀ (n : Nat) (s : State),
    match run n s with
    | .halted t => Reaches s t ∧ t.status = .halted
    | .faulted c t => Reaches s t ∧ t.status = .faulted c
    | .stuck r t => Reaches s t ∧ t.status = .running ∧ step t = .fault r
    | .refused _ _ => False
    | .notFinished t => Reaches s t ∧ t.status = .running

/-- R75, R95, R131: a request of the input source is made by a step that executes an IN and by no other; it is one request,
answered with the byte the register receives, which is counted, or with `Exhausted`, the register receiving the sentinel. -/
def Obligations.RequestIsMadeByIn : Prop :=
  (∀ (s : State) (a : InputAnswer), s.request? = some a →
    s.status = .running ∧ ∃ w c, s.fetch = some w ∧ decode w = .input c) ∧
  (∀ (s : State) (w : Word) (c : RegIdx), s.status = .running → s.fetch = some w → decode w = .input c →
    ∃ t, step s = .next t ∧
      ((∃ byte, s.request? = some (.byte byte) ∧ (t.reg c).toNat = byte.toNat ∧ t.inPos = s.inPos + 1) ∨
       (s.request? = some .exhausted ∧ t.reg c = 0xFFFFFFFF#32 ∧ t.inPos = s.inPos)))

/-- R73, R96, R131: the answers a run receives to its requests are the next bytes of `INPUT`, in order and none left out,
and after them `Exhausted` only, which is answered only where `INPUT` has no byte left; the input position counts the
bytes. -/
def Obligations.RequestsAnsweredInOrder : Prop :=
  ∀ (n : Nat) (s : State), ∃ (got : List Byte) (spent : Nat),
    requests n s = got.map .byte ++ List.replicate spent .exhausted ∧
    (run n s).state.inPos = s.inPos + got.length ∧
    (∀ j, j < got.length → inputByte? s.config.input (s.inPos + j) = got[j]?) ∧
    (spent ≠ 0 → (run n s).state.Exhausted)

/-- R72, R131: what the host observes of a run that is over does not depend on the step budget; the bytes already emitted
stand at the front of what it observes; and the status shows a run that is over exactly where it halted or faulted. -/
def Obligations.ObservationOfFinishedRun : Prop :=
  (∀ (n k : Nat) (s : State), (∀ t, run n s ≠ .notFinished t) → observe (n + k) s = observe n s) ∧
  (∀ (n : Nat) (s : State), s.out <+: (observe n s).out) ∧
  (∀ (n : Nat) (s : State), (observe n s).status.1 ≠ 0 ↔
    ∃ t, run n s = .halted t ∨ ∃ c, run n s = .faulted c t)
end

