-- ==== Sys2Proof/Laws/Encoding.lean ====
section
/-! SUPPORT. The laws of the encoding: an encoded word as a number, the fields of a word as numbers, and what an encoding
with fields is equal to. -/

namespace Sys2Proof

theorem regIdx_lt (r : RegIdx) : r.val < 8 := r.isLt

theorem opField_toNat (w : Word) : (opField w).toNat = w.toNat / 2 ^ 28 % 16 := by
  simp [opField, BitVec.extractLsb'_toNat, Nat.shiftRight_eq_div_pow]

theorem aField_val (w : Word) : (aField w).val = w.toNat / 2 ^ 6 % 8 := by
  simp [aField, Nat.shiftRight_eq_div_pow]

theorem bField_val (w : Word) : (bField w).val = w.toNat / 2 ^ 3 % 8 := by
  simp [bField, Nat.shiftRight_eq_div_pow]

theorem cField_val (w : Word) : (cField w).val = w.toNat % 8 := by
  simp [cField]

theorem oaField_val (w : Word) : (oaField w).val = w.toNat / 2 ^ 25 % 8 := by
  simp [oaField, Nat.shiftRight_eq_div_pow]

theorem immField_toNat (w : Word) : (immField w).toNat = w.toNat % 2 ^ 25 := by
  simp [immField, BitVec.extractLsb'_toNat]

/-- R59 adds the shifted fields where R60 joins them; they do not overlap. -/
theorem encStd_toNat (op : BitVec 4) (a b c : RegIdx) :
    (encStd op a b c).toNat = op.toNat * 2 ^ 28 + a.val * 2 ^ 6 + b.val * 2 ^ 3 + c.val := by
  have ho := op.isLt
  have ha := regIdx_lt a
  have hb := regIdx_lt b
  have hc := regIdx_lt c
  have h3 := Nat.shiftLeft_add_eq_or_of_lt (i := 3) (b := c.val) hc b.val
  have h6 := Nat.shiftLeft_add_eq_or_of_lt (i := 6) (b := b.val <<< 3 + c.val) (by rw [Nat.shiftLeft_eq]; omega) a.val
  have h28 := Nat.shiftLeft_add_eq_or_of_lt (i := 28) (b := a.val <<< 6 + (b.val <<< 3 + c.val))
    (by rw [Nat.shiftLeft_eq, Nat.shiftLeft_eq]; omega) op.toNat
  simp only [encStd, BitVec.toNat_or, BitVec.toNat_shiftLeft, BitVec.toNat_ofNat, BitVec.truncate_eq_setWidth,
    BitVec.toNat_setWidth]
  rw [Nat.mod_eq_of_lt (a := op.toNat) (by omega), Nat.mod_eq_of_lt (a := a.val) (by omega),
    Nat.mod_eq_of_lt (a := b.val) (by omega), Nat.mod_eq_of_lt (a := c.val) (by omega),
    Nat.mod_eq_of_lt (a := op.toNat <<< 28) (by rw [Nat.shiftLeft_eq]; omega),
    Nat.mod_eq_of_lt (a := a.val <<< 6) (by rw [Nat.shiftLeft_eq]; omega),
    Nat.mod_eq_of_lt (a := b.val <<< 3) (by rw [Nat.shiftLeft_eq]; omega),
    Nat.or_assoc, Nat.or_assoc, ← h3, ← h6, ← h28]
  simp only [Nat.shiftLeft_eq]
  omega

theorem encOrtho_toNat (oa : RegIdx) (imm : BitVec 25) :
    (encOrtho oa imm).toNat = 13 * 2 ^ 28 + oa.val * 2 ^ 25 + imm.toNat := by
  have ha := regIdx_lt oa
  have hi := imm.isLt
  have h25 := Nat.shiftLeft_add_eq_or_of_lt (i := 25) (b := imm.toNat) hi oa.val
  have h28 := Nat.shiftLeft_add_eq_or_of_lt (i := 28) (b := oa.val <<< 25 + imm.toNat)
    (by rw [Nat.shiftLeft_eq]; omega) 13
  simp only [encOrtho, BitVec.toNat_or, BitVec.toNat_shiftLeft, BitVec.toNat_ofNat, BitVec.truncate_eq_setWidth,
    BitVec.toNat_setWidth]
  rw [Nat.mod_eq_of_lt (a := oa.val) (by omega), Nat.mod_eq_of_lt (a := imm.toNat) (by omega),
    Nat.mod_eq_of_lt (a := oa.val <<< 25) (by rw [Nat.shiftLeft_eq]; omega),
    show (13 % 2 ^ 4 % 2 ^ 32) <<< 28 % 2 ^ 32 = 13 <<< 28 from rfl, Nat.or_assoc, ← h25, ← h28]
  simp only [Nat.shiftLeft_eq]
  omega

theorem opField_encStd (op : BitVec 4) (a b c : RegIdx) : opField (encStd op a b c) = op := by
  apply BitVec.eq_of_toNat_eq
  rw [opField_toNat, encStd_toNat]
  have := op.isLt; have := regIdx_lt a; have := regIdx_lt b; have := regIdx_lt c
  omega

theorem aField_encStd (op : BitVec 4) (a b c : RegIdx) : aField (encStd op a b c) = a := by
  apply Fin.ext
  rw [aField_val, encStd_toNat]
  have := op.isLt; have := regIdx_lt a; have := regIdx_lt b; have := regIdx_lt c
  omega

theorem bField_encStd (op : BitVec 4) (a b c : RegIdx) : bField (encStd op a b c) = b := by
  apply Fin.ext
  rw [bField_val, encStd_toNat]
  have := op.isLt; have := regIdx_lt a; have := regIdx_lt b; have := regIdx_lt c
  omega

theorem cField_encStd (op : BitVec 4) (a b c : RegIdx) : cField (encStd op a b c) = c := by
  apply Fin.ext
  rw [cField_val, encStd_toNat]
  have := op.isLt; have := regIdx_lt a; have := regIdx_lt b; have := regIdx_lt c
  omega

theorem opField_encOrtho (oa : RegIdx) (imm : BitVec 25) : opField (encOrtho oa imm) = 13#4 := by
  apply BitVec.eq_of_toNat_eq
  rw [opField_toNat, encOrtho_toNat]
  have := regIdx_lt oa; have := imm.isLt
  simp only [BitVec.toNat_ofNat]
  omega

theorem oaField_encOrtho (oa : RegIdx) (imm : BitVec 25) : oaField (encOrtho oa imm) = oa := by
  apply Fin.ext
  rw [oaField_val, encOrtho_toNat]
  have := regIdx_lt oa; have := imm.isLt
  omega

theorem immField_encOrtho (oa : RegIdx) (imm : BitVec 25) : immField (encOrtho oa imm) = imm := by
  apply BitVec.eq_of_toNat_eq
  rw [immField_toNat, encOrtho_toNat]
  have := regIdx_lt oa; have := imm.isLt
  omega

/-- Fields determine a word of the standard format. -/
theorem encStd_inj {op op' : BitVec 4} {a b c a' b' c' : RegIdx} :
    encStd op a b c = encStd op' a' b' c' ↔ op = op' ∧ a = a' ∧ b = b' ∧ c = c' := by
  constructor
  · intro h
    exact ⟨by simpa only [opField_encStd] using congrArg opField h, by simpa only [aField_encStd] using congrArg aField h,
      by simpa only [bField_encStd] using congrArg bField h, by simpa only [cField_encStd] using congrArg cField h⟩
  · rintro ⟨rfl, rfl, rfl, rfl⟩; rfl

end Sys2Proof
end

