-- ==== Sys2Proof/Laws/State.lean ====
section
/-! SUPPORT. One lemma for each field under each update of the state, so that no later proof unfolds a record update, and
the read of a register after each update. -/

namespace Sys2Proof.Machine

section
variable (s : State)

@[simp] theorem State.setReg_regs (r : RegIdx) (v : Word) : (s.setReg r v).regs = s.regs.set r v := rfl
@[simp] theorem State.setReg_pc (r : RegIdx) (v : Word) : (s.setReg r v).pc = s.pc := rfl
@[simp] theorem State.setReg_mem (r : RegIdx) (v : Word) : (s.setReg r v).mem = s.mem := rfl
@[simp] theorem State.setReg_status (r : RegIdx) (v : Word) : (s.setReg r v).status = s.status := rfl
@[simp] theorem State.setReg_out (r : RegIdx) (v : Word) : (s.setReg r v).out = s.out := rfl
@[simp] theorem State.setReg_inPos (r : RegIdx) (v : Word) : (s.setReg r v).inPos = s.inPos := rfl
@[simp] theorem State.setReg_config (r : RegIdx) (v : Word) : (s.setReg r v).config = s.config := rfl

@[simp] theorem State.setPc_regs (p : Word) : (s.setPc p).regs = s.regs := rfl
@[simp] theorem State.setPc_pc (p : Word) : (s.setPc p).pc = p := rfl
@[simp] theorem State.setPc_mem (p : Word) : (s.setPc p).mem = s.mem := rfl
@[simp] theorem State.setPc_status (p : Word) : (s.setPc p).status = s.status := rfl
@[simp] theorem State.setPc_out (p : Word) : (s.setPc p).out = s.out := rfl
@[simp] theorem State.setPc_inPos (p : Word) : (s.setPc p).inPos = s.inPos := rfl
@[simp] theorem State.setPc_config (p : Word) : (s.setPc p).config = s.config := rfl
@[simp] theorem State.setPc_reg (p : Word) (q : RegIdx) : (s.setPc p).reg q = s.reg q := rfl

@[simp] theorem State.advance_regs : (s.advance).regs = s.regs := rfl
@[simp] theorem State.advance_pc : (s.advance).pc = s.pc + 1#32 := rfl
@[simp] theorem State.advance_mem : (s.advance).mem = s.mem := rfl
@[simp] theorem State.advance_status : (s.advance).status = s.status := rfl
@[simp] theorem State.advance_out : (s.advance).out = s.out := rfl
@[simp] theorem State.advance_inPos : (s.advance).inPos = s.inPos := rfl
@[simp] theorem State.advance_config : (s.advance).config = s.config := rfl
@[simp] theorem State.advance_reg (q : RegIdx) : (s.advance).reg q = s.reg q := rfl

@[simp] theorem State.setMem_regs (m : Memory) : (s.setMem m).regs = s.regs := rfl
@[simp] theorem State.setMem_pc (m : Memory) : (s.setMem m).pc = s.pc := rfl
@[simp] theorem State.setMem_mem (m : Memory) : (s.setMem m).mem = m := rfl
@[simp] theorem State.setMem_status (m : Memory) : (s.setMem m).status = s.status := rfl
@[simp] theorem State.setMem_out (m : Memory) : (s.setMem m).out = s.out := rfl
@[simp] theorem State.setMem_inPos (m : Memory) : (s.setMem m).inPos = s.inPos := rfl
@[simp] theorem State.setMem_config (m : Memory) : (s.setMem m).config = s.config := rfl
@[simp] theorem State.setMem_reg (m : Memory) (q : RegIdx) : (s.setMem m).reg q = s.reg q := rfl

@[simp] theorem State.raise_regs (c : FaultCause) : (s.raise c).regs = s.regs := rfl
@[simp] theorem State.raise_pc (c : FaultCause) : (s.raise c).pc = s.pc := rfl
@[simp] theorem State.raise_mem (c : FaultCause) : (s.raise c).mem = s.mem := rfl
@[simp] theorem State.raise_status (c : FaultCause) : (s.raise c).status = .faulted c := rfl
@[simp] theorem State.raise_out (c : FaultCause) : (s.raise c).out = s.out := rfl
@[simp] theorem State.raise_inPos (c : FaultCause) : (s.raise c).inPos = s.inPos := rfl
@[simp] theorem State.raise_config (c : FaultCause) : (s.raise c).config = s.config := rfl
@[simp] theorem State.raise_reg (c : FaultCause) (q : RegIdx) : (s.raise c).reg q = s.reg q := rfl

@[simp] theorem State.halt_regs : (s.halt).regs = s.regs := rfl
@[simp] theorem State.halt_pc : (s.halt).pc = s.pc := rfl
@[simp] theorem State.halt_mem : (s.halt).mem = s.mem := rfl
@[simp] theorem State.halt_status : (s.halt).status = .halted := rfl
@[simp] theorem State.halt_out : (s.halt).out = s.out := rfl
@[simp] theorem State.halt_inPos : (s.halt).inPos = s.inPos := rfl
@[simp] theorem State.halt_config : (s.halt).config = s.config := rfl
@[simp] theorem State.halt_reg (q : RegIdx) : (s.halt).reg q = s.reg q := rfl

@[simp] theorem State.emit_regs (b : Byte) : (s.emit b).regs = s.regs := rfl
@[simp] theorem State.emit_pc (b : Byte) : (s.emit b).pc = s.pc := rfl
@[simp] theorem State.emit_mem (b : Byte) : (s.emit b).mem = s.mem := rfl
@[simp] theorem State.emit_status (b : Byte) : (s.emit b).status = s.status := rfl
@[simp] theorem State.emit_out (b : Byte) : (s.emit b).out = s.out ++ [b] := rfl
@[simp] theorem State.emit_inPos (b : Byte) : (s.emit b).inPos = s.inPos := rfl
@[simp] theorem State.emit_config (b : Byte) : (s.emit b).config = s.config := rfl
@[simp] theorem State.emit_reg (b : Byte) (q : RegIdx) : (s.emit b).reg q = s.reg q := rfl

@[simp] theorem State.countByte_regs : (s.countByte).regs = s.regs := rfl
@[simp] theorem State.countByte_pc : (s.countByte).pc = s.pc := rfl
@[simp] theorem State.countByte_mem : (s.countByte).mem = s.mem := rfl
@[simp] theorem State.countByte_status : (s.countByte).status = s.status := rfl
@[simp] theorem State.countByte_out : (s.countByte).out = s.out := rfl
@[simp] theorem State.countByte_inPos : (s.countByte).inPos = s.inPos + 1 := rfl
@[simp] theorem State.countByte_config : (s.countByte).config = s.config := rfl
@[simp] theorem State.countByte_reg (q : RegIdx) : (s.countByte).reg q = s.reg q := rfl

/-- Reading a register after writing one. -/
theorem State.setReg_reg (r q : RegIdx) (v : Word) : (s.setReg r v).reg q = if r = q then v else s.reg q := by
  simp [State.reg, State.setReg, Vector.getElem_set, Fin.ext_iff]

@[simp] theorem State.setReg_reg_same (r : RegIdx) (v : Word) : (s.setReg r v).reg r = v := by
  simp [State.setReg_reg]

theorem State.setReg_reg_other {r q : RegIdx} (v : Word) (h : q ≠ r) : (s.setReg r v).reg q = s.reg q := by
  simp [State.setReg_reg, Ne.symm h]

/-- Register files that read alike are equal. -/
theorem State.regs_ext {s t : State} (h : ∀ q, t.reg q = s.reg q) : t.regs = s.regs := by
  apply Vector.ext
  intro i hi
  exact h ⟨i, hi⟩

end

end Sys2Proof.Machine
end

