-- ==== Sys2Proof/Laws/Memory.lean ====
section
/-! SUPPORT. The laws of segment memory: a read after a write, what a write leaves alone, that the canonical form and the
invariants of the pool are kept by each operation, and what each operation does to the table. -/

namespace Sys2Proof.Machine

/-! ### Lists of cells -/

/-- Every listed index is in the range, for a canonical list. -/
theorem cellsCanonical_range {lo hi : Nat} {cells : List (Nat × Word)} (h : cellsCanonical lo hi cells = true) :
    ∀ p ∈ cells, lo ≤ p.1 ∧ p.1 < hi ∧ p.2 ≠ unlistedWord := by
  induction cells generalizing lo with
  | nil => simp
  | cons p rest ih =>
    obtain ⟨k, v⟩ := p
    simp only [cellsCanonical, Bool.and_eq_true, decide_eq_true_eq, bne_iff_ne] at h
    obtain ⟨⟨⟨h1, h2⟩, h3⟩, h4⟩ := h
    rintro q (_ | ⟨_, hq⟩)
    · exact ⟨h1, h2, h3⟩
    · have := ih h4 q hq
      exact ⟨by omega, this.2⟩

theorem cellsCanonical_mono {lo lo' hi : Nat} {cells : List (Nat × Word)} (hl : lo' ≤ lo)
    (h : cellsCanonical lo hi cells = true) : cellsCanonical lo' hi cells = true := by
  cases cells with
  | nil => rfl
  | cons p rest =>
    obtain ⟨k, v⟩ := p
    simp only [cellsCanonical, Bool.and_eq_true, decide_eq_true_eq, bne_iff_ne] at h ⊢
    exact ⟨⟨⟨by omega, h.1.1.2⟩, h.1.2⟩, h.2⟩

theorem cellsCanonical_filter (f : Nat × Word → Bool) {lo hi : Nat} {cells : List (Nat × Word)}
    (h : cellsCanonical lo hi cells = true) : cellsCanonical lo hi (cells.filter f) = true := by
  induction cells generalizing lo with
  | nil => rfl
  | cons p rest ih =>
    obtain ⟨k, v⟩ := p
    simp only [cellsCanonical, Bool.and_eq_true, decide_eq_true_eq, bne_iff_ne] at h
    obtain ⟨⟨⟨h1, h2⟩, h3⟩, h4⟩ := h
    rw [List.filter_cons]
    split
    · simp only [cellsCanonical, Bool.and_eq_true, decide_eq_true_eq, bne_iff_ne]
      exact ⟨⟨⟨h1, h2⟩, h3⟩, ih h4⟩
    · exact cellsCanonical_mono (by omega) (ih h4)

theorem cellsCanonical_insert {lo hi i : Nat} {v : Word} {cells : List (Nat × Word)} (hlo : lo ≤ i) (hhi : i < hi)
    (hv : v ≠ unlistedWord) (hne : ∀ p ∈ cells, p.1 ≠ i) (h : cellsCanonical lo hi cells = true) :
    cellsCanonical lo hi (insertCell cells i v) = true := by
  induction cells generalizing lo with
  | nil => simp [insertCell, cellsCanonical, hlo, hhi, hv]
  | cons p rest ih =>
    obtain ⟨k, x⟩ := p
    have hk : k ≠ i := hne (k, x) (by simp)
    simp only [cellsCanonical, Bool.and_eq_true, decide_eq_true_eq, bne_iff_ne] at h
    obtain ⟨⟨⟨h1, h2⟩, h3⟩, h4⟩ := h
    unfold insertCell
    split
    · simp only [cellsCanonical, Bool.and_eq_true, decide_eq_true_eq, bne_iff_ne]
      exact ⟨⟨⟨hlo, hhi⟩, hv⟩, ⟨⟨by omega, h2⟩, h3⟩, h4⟩
    · simp only [cellsCanonical, Bool.and_eq_true, decide_eq_true_eq, bne_iff_ne]
      exact ⟨⟨⟨h1, h2⟩, h3⟩, ih (by omega) (fun q hq => hne q (by simp [hq])) h4⟩

theorem storeCell_canonical {hi i : Nat} {v : Word} {cells : List (Nat × Word)} (hhi : i < hi)
    (h : cellsCanonical 0 hi cells = true) : cellsCanonical 0 hi (storeCell cells i v) = true := by
  unfold storeCell
  split
  · exact cellsCanonical_filter _ h
  · exact cellsCanonical_insert (Nat.zero_le _) hhi ‹_› (by simp) (cellsCanonical_filter _ h)

theorem lookupCell_of_not_listed {cells : List (Nat × Word)} {i : Nat} (h : ∀ p ∈ cells, p.1 ≠ i) :
    lookupCell cells i = unlistedWord := by
  induction cells with
  | nil => rfl
  | cons p rest ih =>
    obtain ⟨k, v⟩ := p
    have hk : k ≠ i := h (k, v) (by simp)
    simp only [lookupCell, hk, if_false]
    exact ih (fun q hq => h q (by simp [hq]))

theorem lookupCell_insert_same (cells : List (Nat × Word)) (i : Nat) (v : Word) (h : ∀ p ∈ cells, p.1 ≠ i) :
    lookupCell (insertCell cells i v) i = v := by
  induction cells with
  | nil => simp [insertCell, lookupCell]
  | cons p rest ih =>
    obtain ⟨k, x⟩ := p
    have hk : k ≠ i := h (k, x) (by simp)
    unfold insertCell
    split
    · simp [lookupCell]
    · simp only [lookupCell, hk, if_false]
      exact ih (fun q hq => h q (by simp [hq]))

theorem lookupCell_insert_other (cells : List (Nat × Word)) {i j : Nat} (v : Word) (h : j ≠ i) :
    lookupCell (insertCell cells i v) j = lookupCell cells j := by
  induction cells with
  | nil => simp [insertCell, lookupCell, Ne.symm h]
  | cons p rest ih =>
    obtain ⟨k, x⟩ := p
    unfold insertCell
    split
    · simp [lookupCell, Ne.symm h]
    · simp only [lookupCell, ih]

theorem lookupCell_filter_other (cells : List (Nat × Word)) {i j : Nat} (h : j ≠ i) :
    lookupCell (cells.filter (fun cell => cell.1 != i)) j = lookupCell cells j := by
  induction cells with
  | nil => rfl
  | cons p rest ih =>
    obtain ⟨k, x⟩ := p
    rw [List.filter_cons]
    by_cases hk : k = i
    · subst hk
      simp [lookupCell, Ne.symm h, ih]
    · simp [hk, lookupCell, ih]

/-- Reading a cell after storing one. It holds of every list, canonical or not. -/
theorem lookupCell_store (cells : List (Nat × Word)) (i j : Nat) (v : Word) :
    lookupCell (storeCell cells i v) j = if j = i then v else lookupCell cells j := by
  unfold storeCell
  split
  · next hv =>
    split
    · next hj => rw [hj, hv]; exact lookupCell_of_not_listed (by simp)
    · next hj => exact lookupCell_filter_other _ hj
  · split
    · next hj => rw [hj]; exact lookupCell_insert_same _ _ _ (by simp)
    · next hj => rw [lookupCell_insert_other _ _ hj, lookupCell_filter_other _ hj]

theorem cellsFrom_canonical (k hi : Nat) (ws : List Word) (h : k + ws.length ≤ hi) :
    cellsCanonical k hi (cellsFrom k ws) = true := by
  induction ws generalizing k with
  | nil => rfl
  | cons w ws ih =>
    simp only [List.length_cons] at h
    unfold cellsFrom
    split
    · exact cellsCanonical_mono (Nat.le_succ k) (ih (k + 1) (by omega))
    · simp only [cellsCanonical, Bool.and_eq_true, decide_eq_true_eq, bne_iff_ne]
      exact ⟨⟨⟨Nat.le_refl k, by omega⟩, ‹_›⟩, ih (k + 1) (by omega)⟩

theorem lookupCell_cellsFrom (k i : Nat) (ws : List Word) (h : k ≤ i) :
    lookupCell (cellsFrom k ws) i = ws.getD (i - k) unlistedWord := by
  induction ws generalizing k with
  | nil => simp [cellsFrom, lookupCell]
  | cons w ws ih =>
    unfold cellsFrom
    by_cases hk : k = i
    · subst hk
      have none_listed : lookupCell (cellsFrom (k + 1) ws) k = unlistedWord :=
        lookupCell_of_not_listed fun p hp => by
          have := cellsCanonical_range (cellsFrom_canonical (k + 1) _ ws (Nat.le_refl _)) p hp
          omega
      split
      · next hw => simp [none_listed, hw]
      · simp [lookupCell]
    · have hs : i - k = (i - (k + 1)) + 1 := by omega
      rw [hs, List.getD_cons_succ, ← ih (k + 1) (by omega)]
      split
      · rfl
      · simp [lookupCell, hk]

/-! ### One segment -/

@[simp] theorem Segment.write_len (g : Segment) (i : Nat) (v : Word) : (g.write i v).len = g.len := rfl

/-- The word read after one is written. -/
theorem Segment.write_word (g : Segment) (i j : Nat) (v : Word) :
    (g.write i v).word j = if j = i then v else g.word j := lookupCell_store _ _ _ _

@[simp] theorem Segment.zeros_len (n : Word) : (Segment.zeros n).len = n := rfl

@[simp] theorem Segment.zeros_word (n : Word) (i : Nat) : (Segment.zeros n).word i = 0#32 := rfl

theorem Segment.zeros_wf (n : Word) : (Segment.zeros n).wf = true := rfl

theorem Segment.write_wf {g : Segment} {i : Nat} {v : Word} (hi : i < g.len.toNat) (h : g.wf = true) :
    (g.write i v).wf = true := storeCell_canonical hi h

theorem Segment.ofWords_len (ws : List Word) (h : ws.length < Config.programLimit) :
    (Segment.ofWords ws).len.toNat = ws.length := by
  simp only [Segment.ofWords, BitVec.toNat_ofNat]
  exact Nat.mod_eq_of_lt h

theorem Segment.ofWords_wf (ws : List Word) (h : ws.length < Config.programLimit) :
    (Segment.ofWords ws).wf = true := by
  unfold Segment.wf
  rw [Segment.ofWords_len ws h]
  exact cellsFrom_canonical 0 _ ws (by omega)

theorem Segment.ofWords_word (ws : List Word) (i : Nat) : (Segment.ofWords ws).word i = ws.getD i 0#32 :=
  lookupCell_cellsFrom 0 i ws (Nat.zero_le i)

/-! ### The table -/

theorem Memory.segment?_eq_some {m : Memory} {h : Word} {g : Segment} :
    m.segment? h = some g ↔ m.seg[h.toNat]? = some (some g) := by
  unfold Memory.segment?
  cases m.seg[h.toNat]? with
  | none => simp
  | some e => simp

theorem Memory.valid_iff {m : Memory} {h : Word} : m.valid h = true ↔ ∃ g, m.segment? h = some g := by
  unfold Memory.valid
  exact Option.isSome_iff_exists

theorem Memory.segment?_lt {m : Memory} {h : Word} {g : Segment} (hg : m.segment? h = some g) :
    h.toNat < m.seg.length := by
  rw [Memory.segment?_eq_some] at hg
  exact (List.getElem?_eq_some_iff.mp hg).1

@[simp] theorem Memory.setEntry_length (m : Memory) (h : Word) (e : Option Segment) :
    (m.setEntry h e).seg.length = m.seg.length := by
  simp [Memory.setEntry]

@[simp] theorem Memory.setEntry_pool (m : Memory) (h : Word) (e : Option Segment) : (m.setEntry h e).pool = m.pool := rfl

/-- An entry of the table after one is replaced. -/
theorem Memory.setEntry_get (m : Memory) (h k : Word) (e : Option Segment) (hh : h.toNat < m.seg.length) :
    (m.setEntry h e).seg[k.toNat]? = if k = h then some e else m.seg[k.toNat]? := by
  simp only [Memory.setEntry, List.getElem?_set]
  by_cases hk : k = h
  · subst hk
    simp [hh]
  · have : h.toNat ≠ k.toNat := fun he => hk (BitVec.eq_of_toNat_eq he.symm)
    simp [hk, this]

theorem Memory.setEntry_segment? (m : Memory) (h k : Word) (e : Option Segment) (hh : h.toNat < m.seg.length) :
    (m.setEntry h e).segment? k = if k = h then e else m.segment? k := by
  unfold Memory.segment?
  rw [Memory.setEntry_get m h k e hh]
  split <;> simp

theorem Memory.wf_segment {m : Memory} {h : Word} {g : Segment} (hm : m.wf = true) (hg : m.segment? h = some g) :
    g.wf = true := by
  rw [Memory.segment?_eq_some] at hg
  have := List.all_eq_true.mp hm _ (List.mem_of_getElem? hg)
  simpa using this

theorem Memory.setEntry_wf {m : Memory} {h : Word} {e : Option Segment} (hm : m.wf = true)
    (he : e.all Segment.wf = true) : (m.setEntry h e).wf = true := by
  refine List.all_eq_true.mpr fun x hx => ?_
  rcases List.mem_or_eq_of_mem_set hx with hx | rfl
  · exact List.all_eq_true.mp hm x hx
  · exact he

/-! ### Access, read and write -/

theorem Memory.access_ok {m : Memory} {h i : Word} {g : Segment} :
    m.access h i = .ok g ↔ m.segment? h = some g ∧ i.toNat < g.len.toNat := by
  unfold Memory.access
  cases hs : m.segment? h with
  | none => simp
  | some g' =>
    simp only [Option.some.injEq]
    by_cases hi : i.toNat < g'.len.toNat
    · simp only [hi, if_true, Except.ok.injEq]
      constructor
      · rintro rfl; exact ⟨rfl, hi⟩
      · exact fun h => h.1
    · simp only [hi, if_false, reduceCtorEq, false_iff]
      rintro ⟨rfl, h2⟩
      exact hi h2

theorem Memory.access_error {m : Memory} {h i : Word} {f : FaultCause} :
    m.access h i = .error f ↔
      (m.segment? h = none ∧ f = .invalidHandle) ∨
      (∃ g, m.segment? h = some g ∧ g.len.toNat ≤ i.toNat ∧ f = .indexOutOfBounds) := by
  unfold Memory.access
  cases hs : m.segment? h with
  | none => simp [eq_comm]
  | some g =>
    by_cases hi : i.toNat < g.len.toNat
    · simp [hi, Nat.not_le.mpr hi]
    · simp [hi, Nat.not_lt.mp hi, eq_comm]

theorem Memory.read_eq_some {m : Memory} {h i v : Word} :
    m.read h i = some v ↔ ∃ g, m.segment? h = some g ∧ i.toNat < g.len.toNat ∧ g.word i.toNat = v := by
  unfold Memory.read
  cases ha : m.access h i with
  | error f =>
    simp only [reduceCtorEq, false_iff, not_exists, not_and]
    intro g hg hi _
    rw [Memory.access_ok.mpr ⟨hg, hi⟩] at ha
    cases ha
  | ok g =>
    obtain ⟨hg, hi⟩ := Memory.access_ok.mp ha
    simp only [Option.some.injEq, hg]
    constructor
    · intro hv; exact ⟨g, rfl, hi, hv⟩
    · rintro ⟨_, rfl, _, hv⟩; exact hv

theorem Memory.read_of_segment? {m : Memory} {h : Word} {g : Segment} (hg : m.segment? h = some g) (i : Word) :
    m.read h i = if i.toNat < g.len.toNat then some (g.word i.toNat) else none := by
  unfold Memory.read Memory.access
  rw [hg]
  by_cases hi : i.toNat < g.len.toNat <;> simp [hi]

theorem Memory.read_of_invalid {m : Memory} {h : Word} (hg : m.segment? h = none) (i : Word) : m.read h i = none := by
  unfold Memory.read Memory.access
  rw [hg]

/-- Reads through a handle depend on its entry alone. -/
theorem Memory.read_congr {m m' : Memory} {h : Word} (hs : m'.segment? h = m.segment? h) (i : Word) :
    m'.read h i = m.read h i := by
  unfold Memory.read Memory.access
  rw [hs]

/-- What a write does to the segments. -/
theorem Memory.write_segment? {m : Memory} {h i v : Word} {g : Segment} (hg : m.segment? h = some g) (k : Word) :
    (m.write h g i v).segment? k = if k = h then some (g.write i.toNat v) else m.segment? k :=
  Memory.setEntry_segment? m h k _ (Memory.segment?_lt hg)

/-- The word read after one is written in bounds (R33). -/
theorem Memory.write_read {m : Memory} {h i v : Word} {g : Segment} (hg : m.segment? h = some g)
    (hi : i.toNat < g.len.toNat) (k j : Word) :
    (m.write h g i v).read k j = if k = h ∧ j = i then some v else m.read k j := by
  by_cases hk : k = h
  · subst hk
    have hw : (m.write k g i v).segment? k = some (g.write i.toNat v) := by simp [Memory.write_segment? hg]
    rw [Memory.read_of_segment? hw, Memory.read_of_segment? hg, Segment.write_word, Segment.write_len]
    by_cases hj : j = i
    · subst hj
      simp [hi]
    · have : j.toNat ≠ i.toNat := fun he => hj (BitVec.eq_of_toNat_eq he)
      simp [hj, this]
  · have hs : (m.write h g i v).segment? k = m.segment? k := by simp [Memory.write_segment? hg, hk]
    simp [hk, Memory.read_congr hs]

theorem Memory.write_wf {m : Memory} {h i v : Word} {g : Segment} (hm : m.wf = true) (hg : m.segment? h = some g)
    (hi : i.toNat < g.len.toNat) : (m.write h g i v).wf = true :=
  Memory.setEntry_wf hm (by simpa using Segment.write_wf hi (Memory.wf_segment hm hg))

/-! ### The pool -/

/-- What `NewHandle` answers (R93). -/
theorem Memory.newHandle_eq_some {m m' : Memory} {h : Word} :
    m.newHandle = some (h, m') ↔
      (∃ rest, m.pool = h :: rest ∧ m' = { m with pool := rest }) ∨
      (m.pool = [] ∧ m.seg.length < Config.maxHandles ∧ h = BitVec.ofNat 32 m.seg.length ∧
        m' = { m with seg := m.seg ++ [none] }) := by
  unfold Memory.newHandle
  cases hp : m.pool with
  | nil =>
    by_cases hl : m.seg.length < Config.maxHandles
    · simp [hl, eq_comm]
    · simp [hl]
  | cons x rest =>
    simp only [Option.some.injEq, Prod.mk.injEq, List.cons.injEq, reduceCtorEq, false_and, or_false]
    constructor
    · rintro ⟨rfl, rfl⟩; exact ⟨rest, ⟨rfl, rfl⟩, rfl⟩
    · rintro ⟨r, ⟨rfl, rfl⟩, rfl⟩; exact ⟨rfl, rfl⟩

/-- `NewHandle` answers the handle of R93 wherever one is left. -/
theorem Memory.newHandle_of_left {m : Memory} (h : m.HandleLeft) : ∃ m', m.newHandle = some (m.nextHandle, m') := by
  unfold Memory.newHandle Memory.nextHandle
  cases hp : m.pool with
  | cons x rest => exact ⟨_, rfl⟩
  | nil =>
    rcases h with h | h
    · exact absurd hp h
    · exact ⟨_, if_pos h⟩

theorem Memory.newHandle_none {m : Memory} : m.newHandle = none ↔ ¬ m.HandleLeft := by
  unfold Memory.newHandle Memory.HandleLeft
  cases hp : m.pool with
  | cons x rest => simp
  | nil => by_cases hl : m.seg.length < Config.maxHandles <;> simp [hl]

theorem Memory.newHandle_wf {m m' : Memory} {h : Word} (hm : m.wf = true) (hn : m.newHandle = some (h, m')) :
    m'.wf = true := by
  rcases Memory.newHandle_eq_some.mp hn with ⟨rest, _, rfl⟩ | ⟨_, _, _, rfl⟩
  · exact hm
  · simpa [Memory.wf] using hm

/-- The handle issued, and the entry waiting for it, in a memory whose pool is in order: not 0, not allocated, within the
table, whose other entries are as they were (R93). -/
theorem Memory.newHandle_spec {m m' : Memory} {h : Word} (hp : m.PoolOk) (hn : m.newHandle = some (h, m')) :
    h ≠ 0#32 ∧ m.segment? h = none ∧ h.toNat < m'.seg.length ∧ m'.seg[h.toNat]? = some none ∧
      (∀ k : Word, k ≠ h → m'.seg[k.toNat]? = m.seg[k.toNat]?) ∧ m'.seg.length ≤ Config.maxHandles ∧
      m'.pool = m.pool.tail ∧ m'.totalWords = m.totalWords ∧ h ∉ m'.pool := by
  have zero_lt : 0 < m.seg.length := by
    obtain ⟨g, hg⟩ := Memory.valid_iff.mp hp.zero_valid
    simpa using Memory.segment?_lt hg
  rcases Memory.newHandle_eq_some.mp hn with ⟨rest, hpool, rfl⟩ | ⟨hpool, hl, rfl, rfl⟩
  · have hmem := (hp.mem_pool_iff h).mp (by simp [hpool])
    have hnd := hp.nodup
    rw [hpool, List.nodup_cons] at hnd
    refine ⟨hmem.1, ?_, (List.getElem?_eq_some_iff.mp hmem.2).1, hmem.2, fun _ _ => rfl, hp.handles_fit, by simp [hpool],
      rfl, hnd.1⟩
    simp [Memory.segment?, hmem.2]
  · have hn32 : (BitVec.ofNat 32 m.seg.length).toNat = m.seg.length := by
      rw [BitVec.toNat_ofNat]; exact Nat.mod_eq_of_lt hl
    refine ⟨?_, ?_, ?_, ?_, ?_, ?_, ?_, ?_, ?_⟩
    · intro he
      rw [he] at hn32
      exact absurd (hn32.symm.trans rfl) (Nat.ne_of_gt zero_lt)
    · simp [Memory.segment?, hn32]
    · simp [hn32]
    · simp [hn32]
    · intro k hk
      have hne : k.toNat ≠ m.seg.length := fun he => hk (BitVec.eq_of_toNat_eq (by rw [he, hn32]))
      rcases Nat.lt_or_ge k.toNat m.seg.length with h1 | h1
      · simp [List.getElem?_append_left h1]
      · rw [List.getElem?_append_right h1]
        have : k.toNat - m.seg.length ≠ 0 := by omega
        obtain ⟨d, hd⟩ := Nat.exists_eq_succ_of_ne_zero this
        simp [hd, h1]
    · simp only [List.length_append, List.length_singleton]; omega
    · simp [hpool]
    · simp [Memory.totalWords, entrySize]
    · simp [hpool]

/-- A memory whose handle `h`, not 0, has just been issued keeps its pool in order when `h` gets its segment. -/
theorem Memory.poolOk_allocated {m m' : Memory} {h : Word} {g : Segment} (hp : m.PoolOk)
    (hn : m.newHandle = some (h, m')) : (m'.setEntry h (some g)).PoolOk := by
  obtain ⟨h0, hold, hlt, hnone, hothers, hfit, hpool, _, hnot⟩ := Memory.newHandle_spec hp hn
  refine ⟨?_, ?_, ?_, ?_⟩
  · intro k
    rw [Memory.setEntry_pool, Memory.setEntry_get _ _ _ _ hlt]
    by_cases hk : k = h
    · subst hk
      simp [hnot]
    · rw [if_neg hk, hothers k hk, ← hp.mem_pool_iff k]
      rcases Memory.newHandle_eq_some.mp hn with ⟨rest, hcons, rfl⟩ | ⟨_, _, _, rfl⟩
      · simp [hcons, hk]
      · rfl
  · rw [Memory.setEntry_pool, hpool]
    exact hp.nodup.sublist (List.tail_sublist _)
  · have h0' : 0#32 ≠ h := fun he => h0 he.symm
    obtain ⟨g0, hg0⟩ := Memory.valid_iff.mp hp.zero_valid
    refine Memory.valid_iff.mpr ⟨g0, ?_⟩
    rw [Memory.setEntry_segment? _ _ _ _ hlt, if_neg h0', ← hg0]
    unfold Memory.segment?
    rw [hothers 0#32 h0']
  · rwa [Memory.setEntry_length]

/-- Replacing a segment by a segment leaves the pool in order. -/
theorem Memory.poolOk_replaced {m : Memory} {h : Word} {g g' : Segment} (hp : m.PoolOk) (hg : m.segment? h = some g) :
    (m.setEntry h (some g')).PoolOk := by
  have hlt := Memory.segment?_lt hg
  refine ⟨?_, hp.nodup, ?_, by rw [Memory.setEntry_length]; exact hp.handles_fit⟩
  · intro k
    rw [Memory.setEntry_pool, Memory.setEntry_get _ _ _ _ hlt, hp.mem_pool_iff k]
    by_cases hk : k = h
    · subst hk
      simp [Memory.segment?_eq_some.mp hg]
    · rw [if_neg hk]
  · obtain ⟨g0, hg0⟩ := Memory.valid_iff.mp hp.zero_valid
    rw [Memory.valid_iff]
    by_cases h0 : 0#32 = h
    · exact ⟨g', by rw [Memory.setEntry_segment? _ _ _ _ hlt, if_pos h0]⟩
    · exact ⟨g0, by rw [Memory.setEntry_segment? _ _ _ _ hlt, if_neg h0, hg0]⟩

@[simp] theorem Memory.free_pool (m : Memory) (h : Word) : (m.free h).pool = h :: m.pool := rfl

@[simp] theorem Memory.free_length (m : Memory) (h : Word) : (m.free h).seg.length = m.seg.length := by
  simp [Memory.free, Memory.setEntry]

theorem Memory.free_get {m : Memory} {h : Word} (hh : h.toNat < m.seg.length) (k : Word) :
    (m.free h).seg[k.toNat]? = if k = h then some none else m.seg[k.toNat]? :=
  Memory.setEntry_get m h k none hh

theorem Memory.free_segment? {m : Memory} {h : Word} (hh : h.toNat < m.seg.length) (k : Word) :
    (m.free h).segment? k = if k = h then none else m.segment? k :=
  Memory.setEntry_segment? m h k none hh

theorem Memory.free_wf {m : Memory} (h : Word) (hm : m.wf = true) : (m.free h).wf = true :=
  Memory.setEntry_wf hm rfl

/-- Freeing an allocated handle other than 0 keeps the pool in order. -/
theorem Memory.poolOk_freed {m : Memory} {h : Word} (hp : m.PoolOk) (h0 : h ≠ 0#32) (hv : m.valid h = true) :
    (m.free h).PoolOk := by
  obtain ⟨g, hg⟩ := Memory.valid_iff.mp hv
  have hlt := Memory.segment?_lt hg
  have hnot : h ∉ m.pool := by
    rw [hp.mem_pool_iff h, Memory.segment?_eq_some.mp hg]
    simp
  refine ⟨?_, ?_, ?_, by simpa using hp.handles_fit⟩
  · intro k
    rw [Memory.free_pool, Memory.free_get hlt, List.mem_cons, hp.mem_pool_iff k]
    by_cases hk : k = h
    · subst hk
      simp [h0]
    · simp [hk]
  · rw [Memory.free_pool, List.nodup_cons]
    exact ⟨hnot, hp.nodup⟩
  · obtain ⟨g0, hg0⟩ := Memory.valid_iff.mp hp.zero_valid
    exact Memory.valid_iff.mpr ⟨g0, by rw [Memory.free_segment? hlt, if_neg (Ne.symm h0), hg0]⟩

/-- The invariants of the pool as a check that can be evaluated on a given memory. -/
def Memory.poolCheck (m : Memory) : Bool :=
  m.pool.all (fun h => h != 0#32 && decide (m.seg[h.toNat]? = some none)) &&
  (List.range m.seg.length).all (fun k =>
    decide (k = 0) || decide (m.seg[k]? ≠ some none) || decide (BitVec.ofNat 32 k ∈ m.pool)) &&
  decide m.pool.Nodup && m.valid 0#32 && decide (m.seg.length ≤ Config.maxHandles)

theorem Memory.poolOk_of_check {m : Memory} (h : m.poolCheck = true) : m.PoolOk := by
  simp only [Memory.poolCheck, Bool.and_eq_true, Bool.or_eq_true, List.all_eq_true, decide_eq_true_eq, bne_iff_ne,
    List.mem_range] at h
  obtain ⟨⟨⟨⟨hpool, htable⟩, hnodup⟩, hzero⟩, hfit⟩ := h
  refine ⟨fun k => ⟨fun hk => hpool k hk, fun hk => ?_⟩, hnodup, hzero, hfit⟩
  have hne : k.toNat ≠ 0 := fun he => hk.1 (BitVec.eq_of_toNat_eq he)
  rcases htable k.toNat (List.getElem?_eq_some_iff.mp hk.2).1 with (h | h) | h
  · exact absurd h hne
  · exact absurd hk.2 h
  · simpa using h

/-! ### Storage -/

theorem sum_map_set {α : Type} (f : α → Nat) (l : List α) (k : Nat) (old e : α) (hk : l[k]? = some old) :
    ((l.set k e).map f).sum + f old = (l.map f).sum + f e := by
  induction l generalizing k with
  | nil => simp at hk
  | cons x rest ih =>
    cases k with
    | zero =>
      simp only [List.getElem?_cons_zero, Option.some.injEq] at hk
      subst hk
      simp only [List.set_cons_zero, List.map_cons, List.sum_cons]
      omega
    | succ k =>
      simp only [List.getElem?_cons_succ] at hk
      have := ih k hk
      simp only [List.set_cons_succ, List.map_cons, List.sum_cons]
      omega

/-- The words in use after one entry is replaced. -/
theorem Memory.setEntry_totalWords {m : Memory} {h : Word} {old : Option Segment} (hh : m.seg[h.toNat]? = some old)
    (e : Option Segment) : (m.setEntry h e).totalWords + entrySize old = m.totalWords + entrySize e :=
  sum_map_set entrySize m.seg h.toNat old e hh

theorem Memory.fits_iff {m : Memory} {capacity : Option Nat} :
    m.fits capacity = true ↔ ∀ limit, capacity = some limit → m.totalWords ≤ limit := by
  cases capacity with
  | none => simp [Memory.fits]
  | some limit => simp [Memory.fits]

end Sys2Proof.Machine
end

