-- ==== Sys2Proof/Laws/Exec.lean ====
section
/-! SUPPORT. Said once: everything an instruction and a step can do when they answer a next state, and when they stop. The
claims about all instructions are derived from these instead of unfolding the meanings. -/

namespace Sys2Proof.Machine

/-- The next states an instruction can answer, with the condition of each: one case for each way the rule of the
instruction ends, its faults among them. -/
inductive Effect (s : State) : Instr → State → Prop where
  | cmovMoves (a b c : RegIdx) : s.reg c ≠ 0#32 → Effect s (.cmov a b c) (s.setReg a (s.reg b))
  | cmovStays (a b c : RegIdx) : s.reg c = 0#32 → Effect s (.cmov a b c) s
  | aidx (a b c : RegIdx) (g : Segment) : s.mem.segment? (s.reg b) = some g → (s.reg c).toNat < g.len.toNat →
      Effect s (.aidx a b c) (s.setReg a (g.word (s.reg c).toNat))
  | aidxInvalid (a b c : RegIdx) : s.mem.segment? (s.reg b) = none → Effect s (.aidx a b c) (s.raise .invalidHandle)
  | aidxOutside (a b c : RegIdx) (g : Segment) : s.mem.segment? (s.reg b) = some g → g.len.toNat ≤ (s.reg c).toNat →
      Effect s (.aidx a b c) (s.raise .indexOutOfBounds)
  | amend (a b c : RegIdx) (g : Segment) : s.mem.segment? (s.reg a) = some g → (s.reg b).toNat < g.len.toNat →
      Effect s (.amend a b c) (s.setMem (s.mem.write (s.reg a) g (s.reg b) (s.reg c)))
  | amendInvalid (a b c : RegIdx) : s.mem.segment? (s.reg a) = none → Effect s (.amend a b c) (s.raise .invalidHandle)
  | amendOutside (a b c : RegIdx) (g : Segment) : s.mem.segment? (s.reg a) = some g → g.len.toNat ≤ (s.reg b).toNat →
      Effect s (.amend a b c) (s.raise .indexOutOfBounds)
  | add (a b c : RegIdx) : Effect s (.add a b c) (s.setReg a (BitVec.ofNat 32 ((s.reg b).toNat + (s.reg c).toNat)))
  | mul (a b c : RegIdx) : Effect s (.mul a b c) (s.setReg a (BitVec.ofNat 32 ((s.reg b).toNat * (s.reg c).toNat)))
  | div (a b c : RegIdx) : s.reg c ≠ 0#32 →
      Effect s (.div a b c) (s.setReg a (BitVec.ofNat 32 ((s.reg b).toNat / (s.reg c).toNat)))
  | divZero (a b c : RegIdx) : s.reg c = 0#32 → Effect s (.div a b c) (s.raise .divideByZero)
  | nand (a b c : RegIdx) : Effect s (.nand a b c) (s.setReg a (~~~(s.reg b &&& s.reg c)))
  | halt : Effect s .halt s.halt
  | alloc (b c : RegIdx) (h : Word) (m : Memory) : s.mem.newHandle = some (h, m) →
      (m.setEntry h (some (Segment.zeros (s.reg c)))).fits s.config.capacity = true →
      Effect s (.alloc b c) ((s.setMem (m.setEntry h (some (Segment.zeros (s.reg c))))).setReg b h)
  | abandon (c : RegIdx) : s.reg c ≠ 0#32 → s.mem.valid (s.reg c) = true →
      Effect s (.abandon c) (s.setMem (s.mem.free (s.reg c)))
  | abandonInvalid (c : RegIdx) : s.reg c = 0#32 ∨ s.mem.valid (s.reg c) = false →
      Effect s (.abandon c) (s.raise .invalidHandle)
  | output (c : RegIdx) : (s.reg c).toNat ≤ 255 → Effect s (.output c) (s.emit (lowByte (s.reg c)))
  | outputTooLarge (c : RegIdx) : 255 < (s.reg c).toNat → Effect s (.output c) (s.raise .invalidOutputValue)
  | inputByte (c : RegIdx) (byte : Byte) : s.take = some byte →
      Effect s (.input c) (s.setReg c (byteWord byte)).countByte
  | inputExhausted (c : RegIdx) : s.take = none → Effect s (.input c) (s.setReg c endOfInput)
  | loadprogJump (b c : RegIdx) : s.reg b = 0#32 → s.mem.valid 0#32 = true →
      Effect s (.loadprog b c) (s.setPc (s.reg c))
  | loadprogCopy (b c : RegIdx) (g : Segment) : s.reg b ≠ 0#32 → s.mem.segment? (s.reg b) = some g →
      (s.mem.setEntry 0#32 (some g)).fits s.config.capacity = true →
      Effect s (.loadprog b c) ((s.setMem (s.mem.setEntry 0#32 (some g))).setPc (s.reg c))
  | loadprogInvalid (b c : RegIdx) : s.mem.segment? (s.reg b) = none →
      Effect s (.loadprog b c) (s.raise .invalidHandle)
  | ortho (oa : RegIdx) (imm : BitVec 25) : Effect s (.ortho oa imm) (s.setReg oa (immWord imm))
  | nop14 : Effect s .nop14 s
  | nop15 : Effect s .nop15 s

/-! ### One lemma for each meaning with cases -/

theorem execCmov_moves {c : RegIdx} {s : State} (a b : RegIdx) (h : s.reg c ≠ 0#32) :
    execCmov a b c s = .next (s.setReg a (s.reg b)) := by
  simp [execCmov, isNonZero, h]

theorem execCmov_stays {c : RegIdx} {s : State} (a b : RegIdx) (h : s.reg c = 0#32) : execCmov a b c s = .next s := by
  simp [execCmov, isNonZero, h]

theorem execAidx_reads {b c : RegIdx} {s : State} {g : Segment} (a : RegIdx) (hg : s.mem.segment? (s.reg b) = some g)
    (hi : (s.reg c).toNat < g.len.toNat) : execAidx a b c s = .next (s.setReg a (g.word (s.reg c).toNat)) := by
  simp [execAidx, Memory.access, hg, hi]

theorem execAidx_invalid {b : RegIdx} {s : State} (a c : RegIdx) (hg : s.mem.segment? (s.reg b) = none) :
    execAidx a b c s = .next (s.raise .invalidHandle) := by
  simp [execAidx, Memory.access, hg]

theorem execAidx_outside {b c : RegIdx} {s : State} {g : Segment} (a : RegIdx) (hg : s.mem.segment? (s.reg b) = some g)
    (hi : g.len.toNat ≤ (s.reg c).toNat) : execAidx a b c s = .next (s.raise .indexOutOfBounds) := by
  simp [execAidx, Memory.access, hg, Nat.not_lt.mpr hi]

theorem execAmend_writes {a b : RegIdx} {s : State} {g : Segment} (c : RegIdx) (hg : s.mem.segment? (s.reg a) = some g)
    (hi : (s.reg b).toNat < g.len.toNat) :
    execAmend a b c s = .next (s.setMem (s.mem.write (s.reg a) g (s.reg b) (s.reg c))) := by
  simp [execAmend, Memory.access, hg, hi]

theorem execAmend_invalid {a : RegIdx} {s : State} (b c : RegIdx) (hg : s.mem.segment? (s.reg a) = none) :
    execAmend a b c s = .next (s.raise .invalidHandle) := by
  simp [execAmend, Memory.access, hg]

theorem execAmend_outside {a b : RegIdx} {s : State} {g : Segment} (c : RegIdx) (hg : s.mem.segment? (s.reg a) = some g)
    (hi : g.len.toNat ≤ (s.reg b).toNat) : execAmend a b c s = .next (s.raise .indexOutOfBounds) := by
  simp [execAmend, Memory.access, hg, Nat.not_lt.mpr hi]

theorem execDiv_divides {c : RegIdx} {s : State} (a b : RegIdx) (h : s.reg c ≠ 0#32) :
    execDiv a b c s = .next (s.setReg a (BitVec.ofNat 32 ((s.reg b).toNat / (s.reg c).toNat))) := if_neg h

theorem execDiv_zero {c : RegIdx} {s : State} (a b : RegIdx) (h : s.reg c = 0#32) :
    execDiv a b c s = .next (s.raise .divideByZero) := if_pos h

theorem execAlloc_allocates {c : RegIdx} {s : State} {h : Word} {m : Memory} (b : RegIdx)
    (hn : s.mem.newHandle = some (h, m))
    (hf : (m.setEntry h (some (Segment.zeros (s.reg c)))).fits s.config.capacity = true) :
    execAlloc b c s = .next ((s.setMem (m.setEntry h (some (Segment.zeros (s.reg c))))).setReg b h) := by
  simp [execAlloc, hn, hf]

theorem execAlloc_noHandle {s : State} (b c : RegIdx) (hn : s.mem.newHandle = none) :
    execAlloc b c s = .fault .stuckNoHandle := by
  simp [execAlloc, hn]

theorem execAlloc_noStorage {c : RegIdx} {s : State} {h : Word} {m : Memory} (b : RegIdx)
    (hn : s.mem.newHandle = some (h, m))
    (hf : (m.setEntry h (some (Segment.zeros (s.reg c)))).fits s.config.capacity = false) :
    execAlloc b c s = .fault .stuckNoStorage := by
  simp [execAlloc, hn, hf]

theorem execAbandon_frees {c : RegIdx} {s : State} (h0 : s.reg c ≠ 0#32) (hv : s.mem.valid (s.reg c) = true) :
    execAbandon c s = .next (s.setMem (s.mem.free (s.reg c))) := by
  unfold execAbandon
  rw [if_neg h0, if_pos hv]

theorem execAbandon_invalid {c : RegIdx} {s : State} (h : s.reg c = 0#32 ∨ s.mem.valid (s.reg c) = false) :
    execAbandon c s = .next (s.raise .invalidHandle) := by
  unfold execAbandon
  split
  · rfl
  · rcases h with h | h
    · contradiction
    · simp [h]

theorem execLoadprog_jumps {b : RegIdx} {s : State} {g : Segment} (c : RegIdx) (h0 : s.reg b = 0#32)
    (hg : s.mem.segment? 0#32 = some g) : execLoadprog b c s = .next (s.setPc (s.reg c)) := by
  unfold execLoadprog
  rw [h0, hg]
  rfl

theorem execLoadprog_loads {b : RegIdx} {s : State} {g : Segment} (c : RegIdx) (h0 : s.reg b ≠ 0#32)
    (hg : s.mem.segment? (s.reg b) = some g) (hf : (s.mem.setEntry 0#32 (some g)).fits s.config.capacity = true) :
    execLoadprog b c s = .next ((s.setMem (s.mem.setEntry 0#32 (some g))).setPc (s.reg c)) := by
  unfold execLoadprog
  rw [hg]
  simp only [if_neg h0, hf, if_true]

theorem execLoadprog_noStorage {b : RegIdx} {s : State} {g : Segment} (c : RegIdx) (h0 : s.reg b ≠ 0#32)
    (hg : s.mem.segment? (s.reg b) = some g) (hf : (s.mem.setEntry 0#32 (some g)).fits s.config.capacity = false) :
    execLoadprog b c s = .fault .stuckNoStorage := by
  unfold execLoadprog
  rw [hg]
  simp only [if_neg h0, hf, Bool.false_eq_true, if_false]

theorem execLoadprog_invalid {b : RegIdx} {s : State} (c : RegIdx) (hg : s.mem.segment? (s.reg b) = none) :
    execLoadprog b c s = .next (s.raise .invalidHandle) := by
  unfold execLoadprog
  rw [hg]

theorem isByteValue_iff {v : Word} : isByteValue v = true ↔ v.toNat ≤ 255 := by
  simp [isByteValue]

theorem execOutput_emits {c : RegIdx} {s : State} (h : (s.reg c).toNat ≤ 255) :
    execOutput c s = .next (s.emit (lowByte (s.reg c))) := if_pos (isByteValue_iff.mpr h)

theorem execOutput_tooLarge {c : RegIdx} {s : State} (h : 255 < (s.reg c).toNat) :
    execOutput c s = .next (s.raise .invalidOutputValue) :=
  if_neg fun hb => absurd (isByteValue_iff.mp hb) (Nat.not_le.mpr h)

theorem execInput_byte {s : State} {b : Byte} (c : RegIdx) (h : s.take = some b) :
    execInput c s = .next (s.setReg c (byteWord b)).countByte := by
  simp [execInput, h, inputWord]

theorem execInput_exhausted {s : State} (c : RegIdx) (h : s.take = none) :
    execInput c s = .next (s.setReg c endOfInput) := by
  simp [execInput, h, inputWord]

/-! ### All instructions at once -/

/-- A next state is one of those `Effect` lists. -/
theorem exec_effect {i : Instr} {s t : State} (h : exec i s = .next t) : Effect s i t := by
  cases i with
  | cmov a b c =>
    by_cases hc : s.reg c = 0#32
    · cases (execCmov_stays a b hc).symm.trans h; exact .cmovStays a b c hc
    · cases (execCmov_moves a b hc).symm.trans h; exact .cmovMoves a b c hc
  | aidx a b c =>
    cases hg : s.mem.segment? (s.reg b) with
    | none => cases (execAidx_invalid a c hg).symm.trans h; exact .aidxInvalid a b c hg
    | some g =>
      rcases Nat.lt_or_ge (s.reg c).toNat g.len.toNat with hi | hi
      · cases (execAidx_reads a hg hi).symm.trans h; exact .aidx a b c g hg hi
      · cases (execAidx_outside a hg hi).symm.trans h; exact .aidxOutside a b c g hg hi
  | amend a b c =>
    cases hg : s.mem.segment? (s.reg a) with
    | none => cases (execAmend_invalid b c hg).symm.trans h; exact .amendInvalid a b c hg
    | some g =>
      rcases Nat.lt_or_ge (s.reg b).toNat g.len.toNat with hi | hi
      · cases (execAmend_writes c hg hi).symm.trans h; exact .amend a b c g hg hi
      · cases (execAmend_outside c hg hi).symm.trans h; exact .amendOutside a b c g hg hi
  | add a b c => cases h; exact .add a b c
  | mul a b c => cases h; exact .mul a b c
  | div a b c =>
    by_cases hc : s.reg c = 0#32
    · cases (execDiv_zero a b hc).symm.trans h; exact .divZero a b c hc
    · cases (execDiv_divides a b hc).symm.trans h; exact .div a b c hc
  | nand a b c => cases h; exact .nand a b c
  | halt => cases h; exact .halt
  | alloc b c =>
    cases hn : s.mem.newHandle with
    | none => cases (execAlloc_noHandle b c hn).symm.trans h
    | some p =>
      obtain ⟨k, m⟩ := p
      cases hf : (m.setEntry k (some (Segment.zeros (s.reg c)))).fits s.config.capacity with
      | true => cases (execAlloc_allocates b hn hf).symm.trans h; exact .alloc b c k m hn hf
      | false => cases (execAlloc_noStorage b hn hf).symm.trans h
  | abandon c =>
    by_cases hc : s.reg c ≠ 0#32 ∧ s.mem.valid (s.reg c) = true
    · cases (execAbandon_frees hc.1 hc.2).symm.trans h; exact .abandon c hc.1 hc.2
    · have hbad : s.reg c = 0#32 ∨ s.mem.valid (s.reg c) = false := by
        by_cases h0 : s.reg c = 0#32
        · exact .inl h0
        · exact .inr (Bool.eq_false_iff.mpr fun hv => hc ⟨h0, hv⟩)
      cases (execAbandon_invalid hbad).symm.trans h
      exact .abandonInvalid c hbad
  | output c =>
    rcases Nat.lt_or_ge 255 (s.reg c).toNat with hc | hc
    · cases (execOutput_tooLarge hc).symm.trans h; exact .outputTooLarge c hc
    · cases (execOutput_emits hc).symm.trans h; exact .output c hc
  | input c =>
    cases ht : s.take with
    | none => cases (execInput_exhausted c ht).symm.trans h; exact .inputExhausted c ht
    | some b => cases (execInput_byte c ht).symm.trans h; exact .inputByte c b ht
  | loadprog b c =>
    cases hg : s.mem.segment? (s.reg b) with
    | none => cases (execLoadprog_invalid c hg).symm.trans h; exact .loadprogInvalid b c hg
    | some g =>
      by_cases h0 : s.reg b = 0#32
      · rw [h0] at hg
        cases (execLoadprog_jumps c h0 hg).symm.trans h
        exact .loadprogJump b c h0 (Memory.valid_iff.mpr ⟨g, hg⟩)
      · cases hf : (s.mem.setEntry 0#32 (some g)).fits s.config.capacity with
        | true => cases (execLoadprog_loads c h0 hg hf).symm.trans h; exact .loadprogCopy b c g h0 hg hf
        | false => cases (execLoadprog_noStorage c h0 hg hf).symm.trans h
  | ortho oa imm => cases h; exact .ortho oa imm
  | nop14 => cases h; exact .nop14
  | nop15 => cases h; exact .nop15

/-- And each of those is answered. -/
theorem effect_exec {i : Instr} {s t : State} (h : Effect s i t) : exec i s = .next t := by
  cases h with
  | cmovMoves a b c h => exact execCmov_moves a b h
  | cmovStays a b c h => exact execCmov_stays a b h
  | aidx a b c g hg hi => exact execAidx_reads a hg hi
  | aidxInvalid a b c hg => exact execAidx_invalid a c hg
  | aidxOutside a b c g hg hi => exact execAidx_outside a hg hi
  | amend a b c g hg hi => exact execAmend_writes c hg hi
  | amendInvalid a b c hg => exact execAmend_invalid b c hg
  | amendOutside a b c g hg hi => exact execAmend_outside c hg hi
  | add | mul | nand | halt | ortho | nop14 | nop15 => rfl
  | div a b c h => exact execDiv_divides a b h
  | divZero a b c h => exact execDiv_zero a b h
  | alloc b c h m hn hf => exact execAlloc_allocates b hn hf
  | abandon c h0 hv => exact execAbandon_frees h0 hv
  | abandonInvalid c h => exact execAbandon_invalid h
  | output c h => exact execOutput_emits h
  | outputTooLarge c h => exact execOutput_tooLarge h
  | inputByte c b h => exact execInput_byte c h
  | inputExhausted c h => exact execInput_exhausted c h
  | loadprogJump b c h0 hv =>
    obtain ⟨g, hg⟩ := Memory.valid_iff.mp hv
    exact execLoadprog_jumps c h0 hg
  | loadprogCopy b c g h0 hg hf => exact execLoadprog_loads c h0 hg hf
  | loadprogInvalid b c hg => exact execLoadprog_invalid c hg

/-! ### The step -/

/-- A step that finds no word to fetch (R66). -/
theorem step_noWord {s : State} (hs : s.status = .running) (hf : s.fetch = none) :
    step s = .next (s.raise .malformedProgram) := by
  simp only [step, hs, hf]

/-- A step that fetches a word executes its instruction on the advanced state (R66 to R69). -/
theorem step_word {s : State} {w : Word} (hs : s.status = .running) (hf : s.fetch = some w) :
    step s = exec (decode w) s.advance := by
  simp only [step, hs, hf]

/-- What a step that answers a next state has done. -/
theorem step_cases {s t : State} (h : step s = .next t) :
    s.status = .running ∧
      ((s.fetch = none ∧ t = s.raise .malformedProgram) ∨
       ∃ w, s.fetch = some w ∧ exec (decode w) s.advance = .next t) := by
  cases hs : s.status with
  | halted => simp [step, hs] at h
  | faulted c => simp [step, hs] at h
  | running =>
    refine ⟨rfl, ?_⟩
    cases hf : s.fetch with
    | none => cases (step_noWord hs hf).symm.trans h; exact .inl ⟨rfl, rfl⟩
    | some w => exact .inr ⟨w, rfl, (step_word hs hf).symm.trans h⟩

/-- The same, with the effect of the instruction. -/
theorem step_effect {s t : State} (h : step s = .next t) :
    s.status = .running ∧
      ((s.fetch = none ∧ t = s.raise .malformedProgram) ∨ ∃ w, s.fetch = some w ∧ Effect s.advance (decode w) t) := by
  obtain ⟨hs, h⟩ := step_cases h
  refine ⟨hs, h.imp_right ?_⟩
  rintro ⟨w, hw, he⟩
  exact ⟨w, hw, exec_effect he⟩

/-- The finger advances without wrapping (R15). -/
theorem fetch_lt {s : State} {w : Word} (h : s.fetch = some w) : s.pc.toNat + 1 < 4294967296 := by
  obtain ⟨g, _, hi, _⟩ := Memory.read_eq_some.mp h
  have := g.len.isLt
  omega

theorem withFetchWord_fetch (s : State) (nbits w : Nat) :
    (s.withFetchWord nbits w).fetch = some (tableWord nbits w) := by
  obtain ⟨p, hp, hlt⟩ : ∃ p : Word, (if s.pc = 0xFFFFFFFF#32 then 0#32 else s.pc) = p ∧ p.toNat + 1 < 4294967296 := by
    refine ⟨_, rfl, ?_⟩
    split
    · decide
    · next hne =>
      have h1 := s.pc.isLt
      have h2 : s.pc.toNat ≠ (0xFFFFFFFF#32).toNat := fun he => hne (BitVec.eq_of_toNat_eq he)
      have h3 : (0xFFFFFFFF#32).toNat = 4294967295 := rfl
      omega
  have hadd : (p + 1#32).toNat = p.toNat + 1 := by
    rw [BitVec.toNat_add, show (1#32).toNat = 1 from rfl]
    exact Nat.mod_eq_of_lt hlt
  simp only [State.withFetchWord, hp, State.fetch]
  rw [Memory.read_eq_some]
  refine ⟨_, Memory.segment?_eq_some.mpr rfl, ?_, by rw [Segment.write_word, if_pos rfl]⟩
  simp only [Segment.write_len]
  split
  · rw [hadd]; omega
  · omega

/-- The next step after an instruction is placed runs exactly it. -/
theorem withFetchWord_step (s : State) (nbits w : Nat) :
    step (s.withFetchWord nbits w) = exec (decode (tableWord nbits w)) (s.withFetchWord nbits w).advance :=
  step_word rfl (withFetchWord_fetch s nbits w)

end Sys2Proof.Machine
end

