-- ==== Sys2Proof/Laws/PerInstr.lean ====
section
/-! SUPPORT. One lemma for each constructor of Instr: its assembler line is well formed, and its encoding carries the opcode
of its row of spec/opcode_table.json. -/

namespace Sys2Proof

/-- The opcode of each row of the table (R55). -/
def Laws.TableRow.opcode : Instr → BitVec 4
  | .cmov _ _ _ => 0#4
  | .aidx _ _ _ => 1#4
  | .amend _ _ _ => 2#4
  | .add _ _ _ => 3#4
  | .mul _ _ _ => 4#4
  | .div _ _ _ => 5#4
  | .nand _ _ _ => 6#4
  | .halt => 7#4
  | .alloc _ _ => 8#4
  | .abandon _ => 9#4
  | .output _ => 10#4
  | .input _ => 11#4
  | .loadprog _ _ => 12#4
  | .ortho _ _ => 13#4
  | .nop14 => 14#4
  | .nop15 => 15#4

/-- The instruction is well formed, and its word is one of its row of the table. -/
def Laws.TableRow.Statement (i : Instr) : Prop := i.wf = true ∧ opField (encode i) = Laws.TableRow.opcode i

theorem isRegister_reg (r : RegIdx) : (Operand.reg r.val).isRegister = true := by
  simp [Operand.isRegister]

/-- A line of a standard mnemonic is well formed when it has as many registers as the mnemonic takes. -/
theorem wf_registers {m : Mnemonic} (rs : List RegIdx) (hm : m ≠ .ortho) (hc : rs.length = m.regCount) :
    (AsmLine.op m (rs.map fun r => .reg r.val)).wf = true := by
  cases m <;> simp_all [AsmLine.wf, isRegister_reg]

theorem Laws.TableRow.cmov (a b c : RegIdx) : Statement (.cmov a b c) :=
  ⟨wf_registers [a, b, c] (by simp) rfl, opField_encStd ..⟩

theorem Laws.TableRow.aidx (a b c : RegIdx) : Statement (.aidx a b c) :=
  ⟨wf_registers [a, b, c] (by simp) rfl, opField_encStd ..⟩

theorem Laws.TableRow.amend (a b c : RegIdx) : Statement (.amend a b c) :=
  ⟨wf_registers [a, b, c] (by simp) rfl, opField_encStd ..⟩

theorem Laws.TableRow.add (a b c : RegIdx) : Statement (.add a b c) :=
  ⟨wf_registers [a, b, c] (by simp) rfl, opField_encStd ..⟩

theorem Laws.TableRow.mul (a b c : RegIdx) : Statement (.mul a b c) :=
  ⟨wf_registers [a, b, c] (by simp) rfl, opField_encStd ..⟩

theorem Laws.TableRow.div (a b c : RegIdx) : Statement (.div a b c) :=
  ⟨wf_registers [a, b, c] (by simp) rfl, opField_encStd ..⟩

theorem Laws.TableRow.nand (a b c : RegIdx) : Statement (.nand a b c) :=
  ⟨wf_registers [a, b, c] (by simp) rfl, opField_encStd ..⟩

theorem Laws.TableRow.halt : Statement .halt := ⟨rfl, opField_encStd ..⟩

theorem Laws.TableRow.alloc (b c : RegIdx) : Statement (.alloc b c) :=
  ⟨wf_registers [b, c] (by simp) rfl, opField_encStd ..⟩

theorem Laws.TableRow.abandon (c : RegIdx) : Statement (.abandon c) :=
  ⟨wf_registers [c] (by simp) rfl, opField_encStd ..⟩

theorem Laws.TableRow.output (c : RegIdx) : Statement (.output c) :=
  ⟨wf_registers [c] (by simp) rfl, opField_encStd ..⟩

theorem Laws.TableRow.input (c : RegIdx) : Statement (.input c) :=
  ⟨wf_registers [c] (by simp) rfl, opField_encStd ..⟩

theorem Laws.TableRow.loadprog (b c : RegIdx) : Statement (.loadprog b c) :=
  ⟨wf_registers [b, c] (by simp) rfl, opField_encStd ..⟩

theorem Laws.TableRow.ortho (oa : RegIdx) (imm : BitVec 25) : Statement (.ortho oa imm) := by
  refine ⟨?_, opField_encOrtho ..⟩
  have hi : imm.toNat < 2 ^ 25 := imm.isLt
  simp only [Instr.wf, Instr.toAsm, AsmLine.wf, isRegister_reg, Bool.true_and, decide_eq_true_eq]
  exact hi

theorem Laws.TableRow.nop14 : Statement .nop14 := ⟨rfl, opField_encStd ..⟩

theorem Laws.TableRow.nop15 : Statement .nop15 := ⟨rfl, opField_encStd ..⟩

end Sys2Proof
end

