-- ==== Sys2Proof/Laws/Run.lean ====
section
/-! SUPPORT. The equations of the run and of its requests, one for each way they go on, and what one step asks of the input
source. -/

namespace Sys2Proof.Machine

theorem run_halted {s : State} (n : Nat) (h : s.status = .halted) : run n s = .halted s := by
  unfold run
  simp only [h]

theorem run_faulted {s : State} {c : FaultCause} (n : Nat) (h : s.status = .faulted c) : run n s = .faulted c s := by
  unfold run
  simp only [h]

theorem run_zero {s : State} (h : s.status = .running) : run 0 s = .notFinished s := by
  simp only [run, h]

theorem run_next {s t : State} (n : Nat) (hs : s.status = .running) (h : step s = .next t) :
    run (n + 1) s = run n t := by
  simp only [run, hs, h]

theorem run_fault {s : State} {r : Fault} (n : Nat) (hs : s.status = .running) (h : step s = .fault r) :
    run (n + 1) s = .stuck r s := by
  simp only [run, hs, h]

theorem run_refused {s : State} {r : Refusal} (n : Nat) (hs : s.status = .running) (h : step s = .refused r) :
    run (n + 1) s = .refused r s := by
  simp only [run, hs, h]

theorem requests_next {s t : State} (n : Nat) (h : step s = .next t) :
    requests (n + 1) s = s.request?.toList ++ requests n t := by
  simp only [requests, h]

/-- Where there is no step, no request is made. -/
theorem requests_stop {s : State} (n : Nat) (h : ∀ t, step s ≠ .next t) : requests n s = [] := by
  cases n with
  | zero => rfl
  | succ n =>
    unfold requests
    split
    · next t ht => exact absurd ht (h t)
    · rfl
    · rfl

theorem request?_input {s : State} {w : Word} {c : RegIdx} (hs : s.status = .running) (hf : s.fetch = some w)
    (hd : decode w = .input c) : s.request? = some s.answer := by
  simp only [State.request?, hs, hf, hd]

theorem request?_some {s : State} {a : InputAnswer} (h : s.request? = some a) :
    s.status = .running ∧ (∃ w c, s.fetch = some w ∧ decode w = .input c) ∧ a = s.answer := by
  unfold State.request? at h
  split at h
  · next w hs hf =>
    split at h
    · next c hd => exact ⟨hs, ⟨w, c, hf, hd⟩, (Option.some.inj h).symm⟩
    all_goals cases h
  · cases h

theorem answer_byte {s : State} {b : Byte} (h : s.take = some b) : s.answer = .byte b := by
  simp only [State.answer, h]

theorem answer_exhausted {s : State} (h : s.take = none) : s.answer = .exhausted := by
  simp only [State.answer, h]

/-- Everything a step does with the input source: it asks for nothing and takes nothing; or it is answered with the next
byte and takes it; or it is answered `Exhausted` and takes nothing. -/
theorem step_request {s t : State} (h : step s = .next t) :
    t.config = s.config ∧
      ((s.request? = none ∧ t.inPos = s.inPos) ∨
       (∃ b, s.take = some b ∧ s.request? = some (.byte b) ∧ t.inPos = s.inPos + 1) ∨
       (s.take = none ∧ s.request? = some .exhausted ∧ t.inPos = s.inPos)) := by
  obtain ⟨hs, ⟨hf, rfl⟩ | ⟨w, hf, he⟩⟩ := step_effect h
  · exact ⟨rfl, .inl ⟨by simp only [State.request?, hs, hf], rfl⟩⟩
  · generalize hd : decode w = i at he
    cases he with
    | inputByte c b hb =>
      exact ⟨rfl, .inr (.inl ⟨b, hb, by rw [request?_input hs hf hd, answer_byte (s := s) hb], rfl⟩)⟩
    | inputExhausted c hb =>
      exact ⟨rfl, .inr (.inr ⟨hb, by rw [request?_input hs hf hd, answer_exhausted (s := s) hb], rfl⟩)⟩
    | _ => exact ⟨rfl, .inl ⟨by simp only [State.request?, hs, hf, hd], rfl⟩⟩

/-- What the source answers is fixed by the input and the position in it. -/
theorem take_congr {s t : State} (hc : t.config = s.config) (hp : t.inPos = s.inPos) : t.take = s.take := by
  unfold State.take
  rw [hc, hp]

/-- Where there is no step, the run stays. -/
theorem run_state_stop {s : State} (n : Nat) (h : ∀ t, step s ≠ .next t) : (run n s).state = s := by
  cases hs : s.status with
  | halted => rw [run_halted n hs]; rfl
  | faulted c => rw [run_faulted n hs]; rfl
  | running =>
    cases n with
    | zero => rw [run_zero hs]; rfl
    | succ n =>
      cases hst : step s with
      | next t => exact absurd hst (h t)
      | fault r => rw [run_fault n hs hst]; rfl
      | refused r => rw [run_refused n hs hst]; rfl

theorem run_zero_state (s : State) : (run 0 s).state = s := by
  cases hs : s.status with
  | halted => rw [run_halted 0 hs]; rfl
  | faulted c => rw [run_faulted 0 hs]; rfl
  | running => rw [run_zero hs]; rfl

/-- No run changes its parameters. -/
theorem run_config (n : Nat) : ∀ s : State, (run n s).state.config = s.config := by
  induction n with
  | zero => intro s; rw [run_zero_state]
  | succ n ih =>
    intro s
    by_cases h : ∃ t, step s = .next t
    · obtain ⟨t, h⟩ := h
      rw [run_next n (step_cases h).1 h, ih, (step_request h).1]
    · rw [run_state_stop _ fun t ht => h ⟨t, ht⟩]

end Sys2Proof.Machine
end

