-- ==== Sys2Proof/Tests/Slice0.lean ====
section
/-! SUPPORT. The model's own tests. The words and the expected results are those of 95_test_vectors.md (the table is named
before each group), or follow from the encoding of R59. The last part shows, for each statement of Obligations.lean that has
hypotheses, a concrete state and operands that meet them. -/

namespace Sys2Proof.Machine

/-! ### The state of a test -/

/-- The reset state with a program and the given registers. -/
def testState (program : List Word) (regs : List (RegIdx × Word)) : State :=
  regs.foldl (fun s p => s.setReg p.1 p.2)
    { State.reset with mem := { seg := [some (Segment.ofWords program)], pool := [] } }

/-- The same, with more entries in the table after segment 0, and a pool. -/
def tableState (program : List Word) (entries : List (Option (List Word))) (pool : List Word)
    (regs : List (RegIdx × Word)) : State :=
  let s := testState program regs
  s.setMem { seg := s.mem.seg ++ entries.map (fun e => e.map Segment.ofWords), pool := pool }

/-- The reset state with a program and an input of the given bytes. -/
def inputState (program : List Word) (bytes : List Byte) (taken : Nat) : State :=
  { testState program [] with config := { capacity := none, input := { bytes := bytes, endless := none } }, inPos := taken }

/-- What one step leaves, if it answers a next state. -/
def after {α : Type} (s : State) (f : State → α) : Option α :=
  match step s with
  | .next t => some (f t)
  | _ => none

/-! ### WellFormed: an ill-formed line for each check (R59) -/

theorem test_wf_refuses_register_8 : (AsmLine.op .add [.reg 8, .reg 0, .reg 0]).wf = false := by decide
theorem test_wf_refuses_register_8_of_ortho : (AsmLine.op .ortho [.reg 8, .imm 0]).wf = false := by decide
theorem test_wf_refuses_missing_operand : (AsmLine.op .add [.reg 1, .reg 0]).wf = false := by decide
theorem test_wf_refuses_operand_of_halt : (AsmLine.op .halt [.reg 0]).wf = false := by decide
theorem test_wf_refuses_immediate_for_register : (AsmLine.op .output [.imm 0]).wf = false := by decide
theorem test_wf_refuses_ortho_without_immediate : (AsmLine.op .ortho [.reg 1]).wf = false := by decide
theorem test_wf_refuses_large_immediate : (AsmLine.op .ortho [.reg 1, .imm 33554432]).wf = false := by decide
theorem test_wf_refuses_large_word : (AsmLine.data 4294967296).wf = false := by decide
theorem test_wf_accepts_largest : (AsmLine.op .ortho [.reg 7, .imm 33554431]).wf = true := by decide
theorem test_assemble_refuses_register_8 : (AsmLine.op .add [.reg 8, .reg 0, .reg 0]).assemble = none := by decide
theorem test_assemble_add : (AsmLine.op .add [.reg 1, .reg 2, .reg 3]).assemble = some 0x30000053#32 := by decide
theorem test_assemble_ortho : (AsmLine.op .ortho [.reg 4, .imm 1234567]).assemble = some 0xD812D687#32 := by decide

/-! ### Decode: one word for each constructor, from V-DEC -/

theorem test_decode_cmov : decode 0b00000000000000000000000110100010#32 = .cmov 6 4 2 := by decide
theorem test_decode_aidx : decode 0b00010000000000000000000101010011#32 = .aidx 5 2 3 := by decide
theorem test_decode_amend : decode 0b00100000000000000000000101011100#32 = .amend 5 3 4 := by decide
theorem test_decode_add_ignores_bits : decode 0b00111111111111111111111001010011#32 = .add 1 2 3 := by decide
theorem test_decode_mul : decode 0b01000000000000000000000010010011#32 = .mul 2 2 3 := by decide
theorem test_decode_div : decode 0b01010000000000000000000001010010#32 = .div 1 2 2 := by decide
theorem test_decode_nand : decode 0b01100000000000000000000011000000#32 = .nand 3 0 0 := by decide
theorem test_decode_halt : decode 0b01111111111111111111111111111111#32 = .halt := by decide
theorem test_decode_alloc_ignores_a : decode 0b10000000000000000000000111101100#32 = .alloc 5 4 := by decide
theorem test_decode_abandon : decode 0b10010000000000000000000000000010#32 = .abandon 2 := by decide
theorem test_decode_output : decode 0b10100000000000000000000000000011#32 = .output 3 := by decide
theorem test_decode_input : decode 0b10110000000000000000000000000001#32 = .input 1 := by decide
theorem test_decode_loadprog : decode 0b11000000000000000000000000101000#32 = .loadprog 5 0 := by decide
theorem test_decode_ortho : decode 0b11011000000100101101011010000111#32 = .ortho 4 1234567 := by decide
theorem test_decode_ortho_register_field : decode 0b11010000000000000000000001000000#32 = .ortho 0 64 := by decide
theorem test_decode_nop14 : decode 0b11101111111111111111111111111111#32 = .nop14 := by decide
theorem test_decode_nop15 : decode 0b11111111111111111111111111111111#32 = .nop15 := by decide
theorem test_decodeTableWord : decodeTableWord 32 0xC0000028 = some (.loadprog 5 0) := by decide

/-! ### The image of P1 (R46) -/

theorem test_image : imageWords [0xD0#8, 0#8, 0#8, 0x48#8, 0x70#8, 0#8, 0#8, 0#8, 0xFF#8] =
    [0xD0000048#32, 0x70000000#32] := by decide

/-! ### V-MOVE -/

theorem test_cmov_moves :
    after (testState [0x00000053#32] [(1, 1#32), (2, 2#32), (3, 0x80000000#32)]) (fun t => (t.reg 1, t.pc)) =
      some (2#32, 1#32) := by decide
theorem test_cmov_reads_condition_first :
    after (testState [0x00000051#32] [(1, 0#32), (2, 9#32)]) (fun t => t.reg 1) = some 0#32 := by decide
theorem test_ortho_zero_extends :
    after (testState [0xDFFFFFFF#32] [(7, 0xFFFFFFFF#32)]) (fun t => t.reg 7) = some 0x01FFFFFF#32 := by decide

/-! ### V-ARRAY -/

theorem test_aidx_destination_is_handle :
    after (tableState [0x10000093#32, 0x70000000#32] [some [0x11#32, 0x22#32, 0x33#32]] [] [(2, 1#32), (3, 0#32)])
      (fun t => t.reg 2) = some 0x11#32 := by decide
theorem test_aidx_compares_unsigned :
    after (tableState [0x10000053#32, 0x70000000#32] [some [0x11#32, 0x22#32, 0x33#32]] []
      [(2, 1#32), (3, 0xFFFFFFFF#32)]) (fun t => (t.status, t.reg 1, t.pc)) =
        some (.faulted .indexOutOfBounds, 0#32, 1#32) := by decide
theorem test_amend_one_register :
    after (tableState [0x20000049#32] [some [0x11#32, 0x22#32, 0x33#32]] [] [(1, 1#32)])
      (fun t => (t.mem.segment? 1#32).map Segment.words) = some (some [0x11#32, 1#32, 0x33#32]) := by decide
theorem test_amend_does_not_append :
    after (tableState [0x20000053#32] [some [0x11#32, 0x22#32, 0x33#32]] [] [(1, 1#32), (2, 3#32), (3, 0xAB#32)])
      (fun t => t.status) = some (.faulted .indexOutOfBounds) := by decide

/-! ### V-ARITH and V-LOGIC -/

theorem test_add : after (testState [0x30000053#32] [(2, 0xDEADBEEF#32), (3, 0x12345678#32)]) (fun t => t.reg 1) =
    some 0xF0E21567#32 := by decide
theorem test_add_wraps : after (testState [0x30000053#32] [(2, 0xFFFFFFFF#32), (3, 1#32)]) (fun t => t.reg 1) =
    some 0#32 := by decide
theorem test_mul : after (testState [0x40000053#32] [(2, 0xDEADBEEF#32), (3, 0x12345678#32)]) (fun t => t.reg 1) =
    some 0x5621CA08#32 := by decide
theorem test_mul_wraps : after (testState [0x40000053#32] [(2, 0xFFFFFFFF#32), (3, 0xFFFFFFFF#32)]) (fun t => t.reg 1) =
    some 1#32 := by decide
theorem test_div : after (testState [0x50000053#32] [(2, 0xDEADBEEF#32), (3, 0x1234#32)]) (fun t => t.reg 1) =
    some 0x000C3BA5#32 := by decide
theorem test_div_zero_by_zero : after (testState [0x50000053#32] [(1, 9#32)]) (fun t => (t.status, t.reg 1)) =
    some (.faulted .divideByZero, 9#32) := by decide
theorem test_nand : after (testState [0x60000053#32] [(2, 0xF0F0F0F0#32), (3, 0xFF00FF00#32)]) (fun t => t.reg 1) =
    some 0x0FFF0FFF#32 := by decide
theorem test_nand_zeros : after (testState [0x600000C0#32] []) (fun t => t.reg 3) = some 0xFFFFFFFF#32 := by decide

/-! ### V-HALT, V-UNDEF, V-LOOP -/

theorem test_halt : after (testState [0x70000000#32] [(1, 5#32)]) (fun t => (t.status, t.pc, t.reg 1)) =
    some (.halted, 1#32, 5#32) := by decide
theorem test_nop14 : after (testState [0xE0000000#32] [(1, 5#32)]) id =
    some ((testState [0xE0000000#32] [(1, 5#32)]).setPc 1#32) := by decide
theorem test_nop15 : after (testState [0xFFFFFFFF#32] [(1, 5#32)]) id =
    some ((testState [0xFFFFFFFF#32] [(1, 5#32)]).setPc 1#32) := by decide
theorem test_empty_program : after State.reset (fun t => (t.status, t.pc)) =
    some (.faulted .malformedProgram, 0#32) := by decide

/-! ### V-SEG -/

theorem test_alloc_length_register_is_destination :
    after (testState [0x8000001B#32] [(3, 5#32)]) (fun t => (t.reg 3, (t.mem.segment? 1#32).map Segment.words)) =
      some (1#32, some [0#32, 0#32, 0#32, 0#32, 0#32]) := by decide
theorem test_alloc_takes_top_of_pool :
    after (tableState [0x80000013#32] [none, some [], none] [1#32, 3#32] [(3, 2#32)])
      (fun t => (t.reg 2, t.mem.pool, t.mem.seg.length)) = some (1#32, [3#32], 4) := by decide
theorem test_abandon :
    after (tableState [0x90000003#32] [some [9#32, 9#32]] [] [(3, 1#32)])
      (fun t => (t.mem.seg[1]?, t.mem.pool, t.reg 3)) = some (some none, [1#32], 1#32) := by decide
theorem test_abandon_twice :
    after (tableState [0x90000003#32] [none] [1#32] [(3, 1#32)]) (fun t => (t.status, t.mem.pool)) =
      some (.faulted .invalidHandle, [1#32]) := by decide
theorem test_loadprog_jump :
    after (testState [0xC0000003#32] [(3, 5#32)]) (fun t => (t.pc, t.mem.seg.length)) = some (5#32, 1) := by decide
theorem test_loadprog_copies :
    after (tableState [0xC0000013#32] [some [0x70000000#32]] [] [(2, 1#32)])
      (fun t => (t.pc, (t.mem.segment? 0#32).map Segment.words, (t.mem.segment? 1#32).map Segment.words)) =
        some (0#32, some [0x70000000#32], some [0x70000000#32]) := by decide

/-! ### V-IO -/

theorem test_output : after (testState [0xA0000003#32] [(3, 255#32)]) (fun t => t.out) = some [0xFF#8] := by decide
theorem test_output_is_not_masked : after (testState [0xA0000003#32] [(3, 0x148#32)]) (fun t => (t.status, t.out)) =
    some (.faulted .invalidOutputValue, []) := by decide
theorem test_input_byte_ff : after (inputState [0xB0000003#32] [0xFF#8] 0) (fun t => (t.reg 3, t.inPos)) =
    some (0xFF#32, 1) := by decide
theorem test_input_exhausted : after (inputState [0xB0000003#32] [0x41#8] 1) (fun t => (t.reg 3, t.inPos)) =
    some (0xFFFFFFFF#32, 1) := by decide

/-! ### What the host observes of a run of one step, IN (R131) -/

theorem test_observe_exhausted :
    observe 1 (inputState [0xB0000003#32] [0x41#8] 1) =
      { out := [], answers := [.exhausted], taken := 1, status := (0, 0) } := by decide
theorem test_observe_byte :
    observe 1 (inputState [0xB0000003#32] [0x41#8, 0xFF#8] 1) =
      { out := [], answers := [.byte 0xFF#8], taken := 2, status := (0, 0) } := by decide

/-! ### The host's placing of an instruction -/

theorem test_placed_halt : after (State.reset.withFetchWord 32 0x70000000) (fun t => t.status) = some .halted := by decide
theorem test_placed_at_last_index :
    after ((State.reset.setPc 0xFFFFFFFF#32).withFetchWord 32 0x70000000) (fun t => (t.status, t.pc)) =
      some (.halted, 1#32) := by decide

/-! ### Witnesses: the hypotheses of each statement of Obligations.lean are met, clause by clause, at a boundary -/

/-- Whether an answer is a next state with the property `P`. -/
def nextWith (r : Result) (P : State → Bool) : Bool :=
  match r with
  | .next t => P t
  | _ => false

theorem exists_next {r : Result} {P : State → Prop} [DecidablePred P]
    (h : nextWith r (fun t => decide (P t)) = true) : ∃ t, r = .next t ∧ P t := by
  unfold nextWith at h
  split at h
  · exact ⟨_, rfl, of_decide_eq_true h⟩
  · exact absurd h (by decide)

/-- A state with three segments (of 1, 3 and 0 words) and one abandoned handle, in the middle of a run. -/
def busyState (regs : List (RegIdx × Word)) : State :=
  tableState [0x70000000#32] [some [0x11#32, 0#32, 0x33#32], none, some []] [2#32] regs

/-- The same in a machine with room for so many words; the state itself uses 4. -/
def smallState (limit : Nat) (regs : List (RegIdx × Word)) : State :=
  { busyState regs with config := { capacity := some limit, input := { bytes := [0x41#8], endless := none } } }

/-- A state with a program of one word, no other segment, and an empty pool. -/
def wordState (w : Word) (regs : List (RegIdx × Word)) : State := testState [w] regs

theorem busyState_inv : (busyState []).Inv := ⟨by decide, Memory.poolOk_of_check (by decide), by decide⟩

theorem witness_EncodingFieldsRoundTrip_ortho : opField 0xDFFFFFFF#32 = 13#4 := by decide

theorem witness_CmovMovesOnNonZero_nonzero : (busyState [(3, 0x80000000#32)]).reg 3 ≠ 0#32 := by decide
theorem witness_CmovMovesOnNonZero_zero : (busyState []).reg 3 = 0#32 := by decide

theorem witness_AidxReadsWord_last_index :
    ∃ g, (busyState [(2, 1#32), (3, 2#32)]).mem.segment? 1#32 = some g ∧ (2#32 : Word).toNat < g.len.toNat :=
  ⟨Segment.ofWords [0x11#32, 0#32, 0x33#32], by decide, by decide⟩
theorem witness_AidxReadsWord_abandoned : (busyState [(2, 2#32)]).mem.valid ((busyState [(2, 2#32)]).reg 2) = false := by
  decide
theorem witness_AidxReadsWord_past_table : (busyState [(2, 4#32)]).mem.valid ((busyState [(2, 4#32)]).reg 2) = false := by
  decide
theorem witness_AidxReadsWord_at_length :
    ∃ g, (busyState [(2, 1#32), (3, 3#32)]).mem.segment? 1#32 = some g ∧ g.len.toNat ≤ (3#32 : Word).toNat :=
  ⟨Segment.ofWords [0x11#32, 0#32, 0x33#32], by decide, by decide⟩
theorem witness_AidxReadsWord_no_words :
    ∃ g, (busyState [(2, 3#32)]).mem.segment? 3#32 = some g ∧ g.len.toNat ≤ (0#32 : Word).toNat :=
  ⟨Segment.empty, by decide, by decide⟩

theorem witness_AmendStoresWord_last_index :
    ∃ g, (busyState [(1, 0#32), (2, 0#32)]).mem.segment? ((busyState [(1, 0#32), (2, 0#32)]).reg 1) = some g ∧
      ((busyState [(1, 0#32), (2, 0#32)]).reg 2).toNat < g.len.toNat :=
  ⟨Segment.ofWords [0x70000000#32], by decide, by decide⟩
theorem witness_AmendStoresWord_abandoned :
    (busyState [(1, 2#32)]).mem.valid ((busyState [(1, 2#32)]).reg 1) = false := by decide
theorem witness_AmendStoresWord_at_length :
    ∃ g, (busyState [(2, 1#32)]).mem.segment? ((busyState [(2, 1#32)]).reg 1) = some g ∧
      g.len.toNat ≤ ((busyState [(2, 1#32)]).reg 2).toNat :=
  ⟨Segment.ofWords [0x70000000#32], by decide, by decide⟩

theorem witness_DivIsFloorQuotient_nonzero : (busyState [(3, 1#32)]).reg 3 ≠ 0#32 := by decide
theorem witness_DivIsFloorQuotient_zero : (busyState [(2, 5#32)]).reg 3 = 0#32 := by decide

theorem witness_HaltEndsTheRun_word : (0x7FFFFFFF#32 : Word).extractLsb' 28 4 = 7#4 := by decide
theorem witness_Nop14ChangesNothing_word : (0xEFFFFFFF#32 : Word).extractLsb' 28 4 = 14#4 := by decide
theorem witness_Nop15ChangesNothing_word : (0xFFFFFFFF#32 : Word).extractLsb' 28 4 = 15#4 := by decide

/-- From the pool, with exactly the room that is needed. -/
theorem witness_AllocCreatesZeroSegment_pool :
    (smallState 6 [(3, 2#32)]).mem.PoolOk ∧ (smallState 6 [(3, 2#32)]).mem.HandleLeft ∧
      (smallState 6 [(3, 2#32)]).Room
        ((smallState 6 [(3, 2#32)]).mem.totalWords + ((smallState 6 [(3, 2#32)]).reg 3).toNat) :=
  ⟨Memory.poolOk_of_check (by decide), .inl (by decide), fun l h => by
    have : l = 6 := by simpa [smallState] using h.symm
    subst this; decide⟩
/-- At the end of the table, storage unbounded. -/
theorem witness_AllocCreatesZeroSegment_table :
    (wordState 0#32 []).mem.PoolOk ∧ (wordState 0#32 []).mem.HandleLeft ∧ (wordState 0#32 []).mem.pool = [] ∧
      (wordState 0#32 []).Room ((wordState 0#32 []).mem.totalWords + ((wordState 0#32 []).reg 3).toNat) :=
  ⟨Memory.poolOk_of_check (by decide), .inr (by decide), by decide, fun l h => by
    simp [wordState, testState, State.reset, RunConfig.default] at h⟩

theorem witness_AbandonFreesSegment_valid :
    (busyState [(3, 3#32)]).reg 3 ≠ 0#32 ∧ (busyState [(3, 3#32)]).mem.valid ((busyState [(3, 3#32)]).reg 3) = true := by
  decide
theorem witness_AbandonFreesSegment_zero : (busyState []).reg 3 = 0#32 := by decide
theorem witness_AbandonFreesSegment_abandoned :
    (busyState [(3, 2#32)]).mem.valid ((busyState [(3, 2#32)]).reg 3) = false := by decide

theorem witness_LoadprogReplacesSegmentZero_jump :
    (busyState []).reg 2 = 0#32 ∧ (busyState []).mem.valid 0#32 = true := by decide
/-- The copy takes exactly the room there is. -/
theorem witness_LoadprogReplacesSegmentZero_copy :
    ∃ g g0, (smallState 6 [(2, 1#32)]).reg 2 ≠ 0#32 ∧
      (smallState 6 [(2, 1#32)]).mem.segment? ((smallState 6 [(2, 1#32)]).reg 2) = some g ∧
      (smallState 6 [(2, 1#32)]).mem.segment? 0#32 = some g0 ∧
      (smallState 6 [(2, 1#32)]).Room ((smallState 6 [(2, 1#32)]).mem.totalWords - g0.len.toNat + g.len.toNat) :=
  ⟨Segment.ofWords [0x11#32, 0#32, 0x33#32], Segment.ofWords [0x70000000#32], by decide, by decide, by decide,
    fun l h => by
      have : l = 6 := by simpa [smallState] using h.symm
      subst this; decide⟩
theorem witness_LoadprogReplacesSegmentZero_abandoned :
    (busyState [(2, 2#32)]).mem.valid ((busyState [(2, 2#32)]).reg 2) = false := by decide

theorem witness_OutputEmitsOneByte_largest : ((busyState [(3, 255#32)]).reg 3).toNat ≤ 255 := by decide
theorem witness_OutputEmitsOneByte_above : 255 < ((busyState [(3, 256#32)]).reg 3).toNat := by decide
theorem witness_InputReceivesByteOrSentinel_byte : (inputState [] [0xFF#8] 0).take = some 0xFF#8 := by decide
theorem witness_InputReceivesByteOrSentinel_exhausted : (inputState [] [0xFF#8] 1).take = none := by decide

theorem witness_StepRunsDecoded :
    (busyState []).status = .running ∧ (busyState []).mem.read 0#32 (busyState []).pc = some 0x70000000#32 := by decide

theorem witness_StatusTransitions_final : (State.reset.halt).status ≠ .running := by decide
theorem witness_StatusTransitions_no_word : State.reset.status = .running ∧ State.reset.fetch = none := by decide
theorem witness_StatusTransitions_halt :
    (busyState []).status = .running ∧ (busyState []).fetch = some 0x70000000#32 ∧ decode 0x70000000#32 = .halt := by decide
theorem witness_StatusTransitions_next : ∃ t, step (busyState []) = .next t ∧ t.status = .halted := exists_next (by decide)
theorem witness_StatusTransitions_fault :
    ∃ t, step (wordState 0x50000000#32 []) = .next t ∧
      t.status = .faulted .divideByZero ∧ FaultCause.divideByZero ≠ .malformedProgram := exists_next (by decide)
theorem witness_StatusTransitions_boot : ∃ s, State.boot [0x70000000#32] RunConfig.default = some s :=
  ⟨wordState 0x70000000#32 [], by decide⟩

theorem witness_FingerAfterStep_no_word : ∃ t, step State.reset = .next t ∧ State.reset.fetch = none :=
  exists_next (by decide)
theorem witness_FingerAfterStep_loadprog :
    ∃ t, step (wordState 0xC0000003#32 [(3, 0xFFFFFFFF#32)]) = .next t ∧ t.pc = 0xFFFFFFFF#32 := exists_next (by decide)
theorem witness_FingerAfterStep_loadprog_fault :
    ∃ t, step (wordState 0xC0000013#32 [(2, 1#32)]) = .next t ∧ t.status = .faulted .invalidHandle ∧ t.pc = 1#32 :=
  exists_next (by decide)
theorem witness_FingerNeverWraps : (busyState []).fetch = some 0x70000000#32 := by decide

theorem witness_FaultEntry_fetch :
    ∃ t, step ((busyState []).setPc 1#32) = .next t ∧ t.status = .faulted .malformedProgram := exists_next (by decide)
theorem witness_FaultEntry_execute :
    ∃ t, step (wordState 0xA0000003#32 [(3, 256#32)]) = .next t ∧ t.status = .faulted .invalidOutputValue :=
  exists_next (by decide)

/-- The hypotheses of `MalformedProgramExactly`, with the finger on the last word and one past it. -/
theorem witness_MalformedProgramExactly :
    ∃ g, (busyState []).status = .running ∧ (busyState []).mem.segment? 0#32 = some g ∧ g.len = 1#32 ∧
      ((busyState []).setPc 1#32).status = .running ∧ ((busyState []).setPc 1#32).mem.segment? 0#32 = some g :=
  ⟨Segment.ofWords [0x70000000#32], by decide, by decide, by decide, by decide, by decide⟩

/-- The one hypothesis of `DivideByZeroExactly`, `InvalidHandleExactly`, `IndexOutOfBoundsExactly` and
`InvalidOutputValueExactly`, in a state in which each of their faults arises. -/
theorem witness_FaultsExactly_running :
    (busyState [(3, 256#32)]).status = .running ∧
      (∃ t, exec (.div 1 2 4) (busyState [(3, 256#32)]) = .next t ∧ t.status = .faulted .divideByZero) ∧
      (∃ t, exec (.abandon 4) (busyState [(3, 256#32)]) = .next t ∧ t.status = .faulted .invalidHandle) ∧
      (∃ t, exec (.aidx 1 4 3) (busyState [(3, 256#32)]) = .next t ∧ t.status = .faulted .indexOutOfBounds) ∧
      (∃ t, exec (.output 3) (busyState [(3, 256#32)]) = .next t ∧ t.status = .faulted .invalidOutputValue) :=
  ⟨by decide, exists_next (by decide), exists_next (by decide), exists_next (by decide), exists_next (by decide)⟩

theorem witness_InvalidHandleExactly_reached :
    ∃ s t, State.boot [0xE0000000#32] RunConfig.default = some s ∧ Reaches s t ∧ t.pc = 1#32 := by
  obtain ⟨t, h, ht⟩ : ∃ t, step (wordState 0xE0000000#32 []) = .next t ∧ t.pc = 1#32 := exists_next (by decide)
  exact ⟨wordState 0xE0000000#32 [], t, by decide, .step h (.refl t), ht⟩

theorem witness_FaultsByInstruction_execute :
    (busyState [(1, 1#32), (2, 3#32)]).status = .running ∧
      ∃ t, exec (.amend 1 2 3) (busyState [(1, 1#32), (2, 3#32)]) = .next t ∧ t.status = .faulted .indexOutOfBounds :=
  ⟨by decide, exists_next (by decide)⟩
theorem witness_FaultsByInstruction_fetch : State.reset.status = .running ∧ State.reset.fetch = none := by decide

/-- One word short of what ALLOC asks for; with one word more it would complete. -/
theorem witness_StuckExactly_alloc :
    (smallState 5 [(3, 2#32)]).mem.PoolOk ∧
      (smallState 5 [(3, 2#32)]).mem.segment? 0#32 = some (Segment.ofWords [0x70000000#32]) ∧
      exec (.alloc 1 3) (smallState 5 [(3, 2#32)]) = .fault .stuckNoStorage :=
  ⟨Memory.poolOk_of_check (by decide), by decide, by rfl⟩
theorem witness_StuckExactly_loadprog :
    (smallState 5 [(2, 1#32)]).mem.PoolOk ∧
      (smallState 5 [(2, 1#32)]).mem.segment? 0#32 = some (Segment.ofWords [0x70000000#32]) ∧
      exec (.loadprog 2 3) (smallState 5 [(2, 1#32)]) = .fault .stuckNoStorage :=
  ⟨Memory.poolOk_of_check (by decide), by decide, by rfl⟩

/-- A table of 2^32 entries, each a segment of no words. -/
def fullState : State :=
  State.reset.setMem { seg := List.replicate Config.maxHandles (some Segment.empty), pool := [] }

theorem fullState_handle (h : Word) : fullState.mem.seg[h.toNat]? = some (some Segment.empty) := by
  unfold fullState
  rw [State.setMem_mem, List.getElem?_replicate, if_pos h.isLt]

/-- The pool empty and 2^32 handles issued. -/
theorem witness_StuckExactly_noHandle :
    fullState.mem.PoolOk ∧ fullState.mem.segment? 0#32 = some Segment.empty ∧ ¬ fullState.mem.HandleLeft := by
  have hz : fullState.mem.segment? 0#32 = some Segment.empty := by
    unfold Memory.segment?
    rw [fullState_handle]
    rfl
  have hl : fullState.mem.seg.length = Config.maxHandles := by
    unfold fullState
    rw [State.setMem_mem, List.length_replicate]
  refine ⟨⟨fun h => ⟨fun hm => ?_, fun hm => ?_⟩, ?_, ?_, Nat.le_of_eq hl⟩, hz, ?_⟩
  · cases hm
  · rw [fullState_handle] at hm
    cases hm.2
  · exact List.nodup_nil
  · unfold Memory.valid
    rw [hz]
    rfl
  · rintro (hp | hp)
    · exact hp rfl
    · exact Nat.lt_irrefl _ (hl ▸ hp)

theorem witness_UnboundedMachineGoesOn :
    (busyState []).status = .running ∧ (busyState []).config.capacity = none ∧ (busyState []).mem.HandleLeft :=
  ⟨by decide, by decide, .inl (by decide)⟩

/-- `ALLOC r1, r3` of two words, which takes the last of the storage. -/
theorem witness_CapacityKept :
    let s := (smallState 6 [(3, 2#32)]).withFetchWord 32 0x8000000B
    s.Inv ∧ s.WithinCapacity ∧ ∃ t, step s = .next t ∧ t.mem.totalWords = 6 :=
  ⟨⟨by decide, Memory.poolOk_of_check (by decide), by decide⟩, show Memory.fits _ _ = true by decide,
    exists_next (by decide)⟩

theorem witness_MemWriteLaw :
    ∃ g, (busyState []).mem.segment? 1#32 = some g ∧ (2#32 : Word).toNat < g.len.toNat :=
  ⟨Segment.ofWords [0x11#32, 0#32, 0x33#32], by decide, by decide⟩

theorem witness_SegmentsNeverAlias_amend :
    ∃ t, exec (.amend 1 2 3) (busyState [(1, 1#32)]) = .next t ∧ (3#32 : Word) ≠ (busyState [(1, 1#32)]).reg 1 :=
  exists_next (by decide)
/-- After `LOADPROG r2, r3` of segment 1, `AMEND r2, r3, r2` stores into the source, `AMEND r3, r3, r2` into segment 0. -/
theorem witness_SegmentsNeverAlias_loadprog :
    let s := busyState [(2, 1#32)]
    s.status = .running ∧ s.mem.valid 0#32 = true ∧ s.reg 2 ≠ 0#32 ∧
      ∃ t, exec (.loadprog 2 3) s = .next t ∧ t.status = .running ∧
        (t.reg 2 = s.reg 2 ∧ (nextWith (exec (.amend 2 3 2) t) fun _ => true) = true) ∧
        (t.reg 3 = 0#32 ∧ (nextWith (exec (.amend 3 3 2) t) fun _ => true) = true) :=
  ⟨by decide, by decide, by decide, exists_next (by decide)⟩
theorem witness_SegmentsNeverAlias_alloc :
    (busyState [(3, 1#32)]).mem.PoolOk ∧
      ∃ t, exec (.alloc 1 3) (busyState [(3, 1#32)]) = .next t ∧ t.mem.read (t.reg 1) 0#32 = some 0#32 :=
  ⟨busyState_inv.pool_ok, exists_next (by decide)⟩

theorem witness_StoreSeenByNextFetch_store :
    (busyState []).status = .running ∧ (busyState []).fetch = some 0x70000000#32 ∧ (busyState []).reg 1 = 0#32 ∧
      (busyState []).reg 2 = (busyState []).pc := by decide
theorem witness_StoreSeenByNextFetch_own_word :
    (wordState 0x20000053#32 []).status = .running ∧ (wordState 0x20000053#32 []).fetch = some 0x20000053#32 ∧
      decode 0x20000053#32 = .amend 1 2 3 ∧ (wordState 0x20000053#32 []).reg 1 = 0#32 ∧
      (wordState 0x20000053#32 []).reg 2 = (wordState 0x20000053#32 []).pc := by decide
theorem witness_StoreSeenByNextFetch_loadprog :
    (busyState [(2, 1#32), (3, 2#32)]).status = .running ∧ (busyState [(2, 1#32), (3, 2#32)]).mem.valid 0#32 = true ∧
      ∃ t, exec (.loadprog 2 3) (busyState [(2, 1#32), (3, 2#32)]) = .next t ∧ t.status = .running :=
  ⟨by decide, by decide, exists_next (by decide)⟩

theorem witness_HandleReuseIsAStack :
    (busyState [(2, 7#32)]).Inv ∧ (busyState [(2, 7#32)]).status = .running ∧
      (busyState [(2, 7#32)]).config.capacity = none ∧ [3#32, 1#32].Nodup ∧
      ∀ h ∈ [3#32, 1#32], h ≠ 0#32 ∧ (busyState [(2, 7#32)]).mem.valid h = true :=
  ⟨⟨by decide, Memory.poolOk_of_check (by decide), by decide⟩, by decide, by decide, by decide, by
    simp only [List.mem_cons, List.not_mem_nil, or_false]
    rintro _ (rfl | rfl) <;> decide⟩

theorem witness_SegmentRefinesWordSequence :
    2 < (Segment.zeros 3#32).len.toNat ∧ [5#32, 0#32, 0xFFFFFFFF#32].length < Config.programLimit := by decide
theorem witness_EqualWordsEqualSegments :
    (Segment.ofWords [0#32, 5#32]).wf = true ∧ ((Segment.zeros 2#32).write 1 5#32).wf = true ∧
      (Segment.ofWords [0#32, 5#32]).words = ((Segment.zeros 2#32).write 1 5#32).words := by decide

theorem witness_InvariantsKept_boot : ∃ s, State.boot [0x70000000#32, 0#32] RunConfig.default = some s :=
  ⟨testState [0x70000000#32, 0#32] [], by decide⟩
theorem witness_InvariantsKept_step : (busyState []).Inv ∧ ∃ t, step (busyState []) = .next t ∧ t.status = .halted :=
  ⟨busyState_inv, exists_next (by decide)⟩
/-- A step that lengthens the table. -/
theorem witness_TableOnlyGrows :
    (wordState 0x8000000B#32 []).Inv ∧ ∃ t, step (wordState 0x8000000B#32 []) = .next t ∧ t.mem.seg.length = 2 :=
  ⟨⟨by decide, Memory.poolOk_of_check (by decide), by decide⟩, exists_next (by decide)⟩

/-- AIDX with the index in register 3: registers 2 and 3 agree, all others differ. -/
theorem witness_RegisterUseAsListed_next :
    (∀ q ∈ regsRead (busyState [(2, 1#32)]) (.aidx 1 2 3),
      (Vector.ofFn fun k : RegIdx => if k = 2 then 1#32 else if k = 3 then 0#32 else 9#32)[q] =
        (busyState [(2, 1#32)]).reg q) ∧
      ∃ t, exec (.aidx 1 2 3) (busyState [(2, 1#32)]) = .next t ∧ t.reg 1 = 0x11#32 :=
  ⟨by decide, exists_next (by decide)⟩
theorem witness_RegisterUseAsListed_stuck :
    (∀ q ∈ regsRead (smallState 4 [(3, 1#32)]) (.alloc 1 3),
      (Vector.replicate Config.numRegs 1#32)[q] = (smallState 4 [(3, 1#32)]).reg q) ∧
      exec (.alloc 1 3) (smallState 4 [(3, 1#32)]) = .fault .stuckNoStorage := ⟨by decide, by rfl⟩

theorem witness_MemoryChangedByFourInstructions :
    ∃ t, step (wordState 0x20000053#32 []) = .next t ∧ t.mem ≠ (wordState 0x20000053#32 []).mem := exists_next (by decide)
theorem witness_EnvironmentOnlyThroughInAndOut :
    ∃ t, step (inputState [0xB0000003#32] [0#8] 0) = .next t ∧ t.inPos = 1 := exists_next (by decide)
theorem witness_EnvironmentOnlyThroughInAndOut_out :
    ∃ t, step (wordState 0xA0000003#32 [(3, 255#32)]) = .next t ∧ t.out = [0xFF#8] := exists_next (by decide)
theorem witness_EnvironmentNotRead_out :
    ∃ t, exec (.output 3) (busyState [(3, 0x41#32)]) = .next t ∧ t.out = [0x41#8] := exists_next (by decide)
theorem witness_EnvironmentNotRead_input :
    (∀ c, Instr.cmov 1 2 3 ≠ .input c) ∧ ∃ t, exec (.cmov 1 2 3) (busyState []) = .next t ∧ t.pc = 0#32 :=
  ⟨fun _ h => (by cases h), exists_next (by decide)⟩

theorem witness_ExhaustionIsPermanent_finite : (inputState [] [0x41#8] 1).config.input.endless = none := by decide
theorem witness_ExhaustionIsPermanent_endless :
    { bytes := [0x41#8], endless := some 7 : InputSource }.endless = some 7 := by decide
theorem witness_ExhaustionIsPermanent_reached :
    (inputState [0xB0000003#32] [0x41#8] 1).Exhausted ∧
      ∃ t, Reaches (inputState [0xB0000003#32] [0x41#8] 1) t ∧ t.pc = 1#32 := by
  obtain ⟨t, h, ht⟩ : ∃ t, step (inputState [0xB0000003#32] [0x41#8] 1) = .next t ∧ t.pc = 1#32 :=
    exists_next (by decide)
  exact ⟨show State.take _ = none by decide, t, .step h (.refl t), ht⟩

theorem witness_BootGivesResetState_largest : (List.replicate (2 ^ 32 - 1) 0#32).length < 2 ^ 32 := by
  simp only [List.length_replicate]; omega
theorem witness_BootGivesResetState_too_large : 2 ^ 32 ≤ (List.replicate (2 ^ 32) 0#32).length := by
  simp only [List.length_replicate]; omega

theorem witness_ResetIsBootOfEmptyProgram_config :
    ∃ s, State.boot [0x70000000#32] { capacity := some 1, input := { bytes := [1#8], endless := none } } = some s :=
  ⟨{ wordState 0x70000000#32 [] with
      config := { capacity := some 1, input := { bytes := [1#8], endless := none } } }, by decide⟩

theorem witness_ImageWordsBigEndian : 4 * 1 + 3 < [1#8, 2#8, 3#8, 4#8, 5#8, 6#8, 7#8, 8#8].length := by decide

theorem witness_LargerBudgetSameEnd : ∀ t, run 1 (busyState []) ≠ .notFinished t := fun t h => by
  have hd : run 1 (busyState []) = .halted ((busyState []).advance.halt) := by decide
  rw [hd] at h
  cases h

theorem witness_RequestIsMadeByIn_request :
    (inputState [0xB0000003#32] [0xFF#8] 0).request? = some (.byte 0xFF#8) := by decide
theorem witness_RequestIsMadeByIn_step :
    (inputState [0xB0000003#32] [] 0).status = .running ∧ (inputState [0xB0000003#32] [] 0).fetch = some 0xB0000003#32 ∧
      decode 0xB0000003#32 = .input 3 := by decide
theorem witness_RequestsAnsweredInOrder_both :
    requests 1 (inputState [0xB0000003#32] [0x41#8] 0) = [0x41#8].map .byte ++ List.replicate 0 .exhausted ∧
      requests 1 (inputState [0xB0000003#32] [0x41#8] 1) = [].map .byte ++ List.replicate 1 .exhausted := by decide
theorem witness_ObservationOfFinishedRun : ∀ t, run 1 (busyState []) ≠ .notFinished t := witness_LargerBudgetSameEnd

end Sys2Proof.Machine
end

section
/-! PROOF. The invariants (R20 to R22, R45, R96): what one step can do to segment memory, said once, and what that keeps. -/

namespace Sys2Proof.Machine

/-- What one instruction can do to segment memory (R49): nothing, replace a segment by a segment (AMEND, LOADPROG), create
one under a new handle (ALLOC), or free one (ABANDON). -/
inductive Memory.Change (m : Memory) : Memory → Prop where
  | unchanged : Change m m
  | replaced (h : Word) (g g' : Segment) : m.segment? h = some g → (m.wf = true → g'.wf = true) →
      Change m (m.setEntry h (some g'))
  | allocated (h : Word) (m' : Memory) (n : Word) : m.newHandle = some (h, m') →
      Change m (m'.setEntry h (some (Segment.zeros n)))
  | freed (h : Word) : h ≠ 0#32 → m.valid h = true → Change m (m.free h)

theorem Memory.Change.wf {m m' : Memory} (h : m.Change m') (hm : m.wf = true) : m'.wf = true := by
  cases h with
  | unchanged => exact hm
  | replaced k g g' _ hg' => exact Memory.setEntry_wf hm (hg' hm)
  | allocated k m₁ n hn => exact Memory.setEntry_wf (Memory.newHandle_wf hm hn) (Segment.zeros_wf n)
  | freed k _ _ => exact Memory.free_wf k hm

theorem Memory.Change.poolOk {m m' : Memory} (h : m.Change m') (hp : m.PoolOk) : m'.PoolOk := by
  cases h with
  | unchanged => exact hp
  | replaced k g g' hg _ => exact Memory.poolOk_replaced hp hg
  | allocated k m₁ n hn => exact Memory.poolOk_allocated hp hn
  | freed k h0 hv => exact Memory.poolOk_freed hp h0 hv

theorem Memory.newHandle_length {m m' : Memory} {h : Word} (hn : m.newHandle = some (h, m')) :
    m.seg.length ≤ m'.seg.length ∧ m'.seg.length ≤ m.seg.length + 1 := by
  rcases Memory.newHandle_eq_some.mp hn with ⟨rest, _, rfl⟩ | ⟨_, _, _, rfl⟩ <;> simp

theorem Memory.Change.length {m m' : Memory} (h : m.Change m') :
    m.seg.length ≤ m'.seg.length ∧ m'.seg.length ≤ m.seg.length + 1 := by
  cases h with
  | allocated k m₁ n hn => rw [Memory.setEntry_length]; exact Memory.newHandle_length hn
  | unchanged | replaced | freed => simp

theorem effect_memory {i : Instr} {s t : State} (h0 : s.mem.valid 0#32 = true) (h : Effect s i t) :
    s.mem.Change t.mem := by
  cases h with
  | amend a b c g hg hi =>
    exact .replaced _ g _ hg fun hm => Segment.write_wf hi (Memory.wf_segment hm hg)
  | alloc b c k m hn _ => exact .allocated k m _ hn
  | abandon c hne hv => exact .freed _ hne hv
  | loadprogCopy b c g _ hg _ =>
    obtain ⟨g0, hg0⟩ := Memory.valid_iff.mp h0
    exact .replaced _ g0 g hg0 fun hm => Memory.wf_segment hm hg
  | _ => exact .unchanged

theorem step_memory {s t : State} (h0 : s.mem.valid 0#32 = true) (h : step s = .next t) : s.mem.Change t.mem := by
  obtain ⟨-, ⟨-, rfl⟩ | ⟨w, -, he⟩⟩ := step_effect h
  · exact .unchanged
  · exact effect_memory (s := s.advance) h0 he

/-- A finite source that answers with a byte has not been read to its end (R96). -/
theorem inPos_lt_of_take {s : State} {b : Byte} (he : s.config.input.endless = none) (h : s.take = some b) :
    s.inPos < s.config.input.bytes.length := by
  cases hb : s.config.input.bytes[s.inPos]? with
  | none => simp [State.take, inputByte?, hb, he] at h
  | some _ => exact (List.getElem?_eq_some_iff.mp hb).1

theorem step_inputOk {s t : State} (h : step s = .next t)
    (hs : s.config.input.endless = none → s.inPos ≤ s.config.input.bytes.length) :
    t.config.input.endless = none → t.inPos ≤ t.config.input.bytes.length := by
  obtain ⟨hc, ⟨-, hp⟩ | ⟨b, hb, -, hp⟩ | ⟨-, -, hp⟩⟩ := step_request h <;> rw [hc, hp]
  · exact hs
  · exact fun he => inPos_lt_of_take he hb
  · exact hs

theorem step_inv {s t : State} (hi : s.Inv) (h : step s = .next t) : t.Inv :=
  have change := step_memory hi.pool_ok.zero_valid h
  ⟨change.wf hi.mem_wf, change.poolOk hi.pool_ok, step_inputOk h hi.input_ok⟩

/-- The state a program is reset to, where there is one. -/
theorem boot_eq_some {program : List Word} {config : RunConfig} {s : State} :
    State.boot program config = some s ↔ program.length < Config.programLimit ∧
      s = { State.reset with mem := { seg := [some (Segment.ofWords program)], pool := [] }, config := config } := by
  unfold State.boot
  split <;> simp [*, eq_comm]

/-- A table that holds segment 0 alone, with the pool empty, is in order. -/
theorem Memory.poolOk_single (g : Segment) : Memory.PoolOk { seg := [some g], pool := [] } where
  mem_pool_iff h := by
    simp only [List.not_mem_nil, false_iff, not_and]
    cases h.toNat <;> simp
  nodup := List.nodup_nil
  zero_valid := rfl
  handles_fit := by simp

theorem boot_inv {program : List Word} {config : RunConfig} {s : State} (h : State.boot program config = some s) :
    s.Inv := by
  obtain ⟨hlen, rfl⟩ := boot_eq_some.mp h
  exact ⟨by simp [Memory.wf, Segment.ofWords_wf program hlen], Memory.poolOk_single _, fun _ => Nat.zero_le _⟩

/-- Settles O44: a step changes memory in one of the four ways of `Memory.Change`, each of which keeps the canonical form
and the pool. -/
theorem invariantsKept : Obligations.InvariantsKept :=
  ⟨fun _ _ _ => boot_inv, fun _ _ => step_inv⟩

/-- Settles O45: `State.reset` is a reset with a program, and its capacity is unbounded. -/
theorem resetMeetsInvariants : Obligations.ResetMeetsInvariants :=
  ⟨boot_inv (program := []) (config := .default) rfl, rfl⟩

/-- Settles O46, by the four ways of `Memory.Change`. -/
theorem tableOnlyGrows : Obligations.TableOnlyGrows := by
  intro s t hi h
  obtain ⟨lower, upper⟩ := (step_memory hi.pool_ok.zero_valid h).length
  exact ⟨lower, upper, (step_inv hi h).pool_ok.zero_valid⟩

/-- Settles O52: segment 0 is `Segment.ofWords program`, which reads as the program. -/
theorem bootGivesResetState : Obligations.BootGivesResetState := by
  intro program config
  refine ⟨fun hlen => ⟨_, boot_eq_some.mpr ⟨hlen, rfl⟩, ?_⟩, fun hlen => if_neg (Nat.not_lt.mpr hlen)⟩
  have hseg : Memory.segment? { seg := [some (Segment.ofWords program)], pool := [] } 0#32 =
    some (Segment.ofWords program) := rfl
  have hn := Segment.ofWords_len program hlen
  refine ⟨fun q => by simp [State.reg, State.reset], rfl, rfl, fun i => ?_, ⟨_, hseg, hn⟩, rfl, rfl, rfl, rfl⟩
  rw [Memory.read_of_segment? hseg, hn, Segment.ofWords_word]
  split
  · next hi => simp [hi]
  · next hi => simp [Nat.not_lt.mp hi]

end Sys2Proof.Machine
end

section
/-! PROOF. The finger (R14, R15) and the environment (R10, R23, R94 to R96): what an instruction does to each, said once. -/

namespace Sys2Proof.Machine

/-- Where an instruction leaves the finger, which has been advanced before it: a LOADPROG that does not fault moves it. -/
theorem effect_pc {i : Instr} {s t : State} (h : Effect s i t) :
    (∃ b c, i = .loadprog b c ∧ t.status = s.status ∧ t.pc = s.reg c) ∨
      (((∀ b c, i ≠ .loadprog b c) ∨ ∃ cause, t.status = .faulted cause) ∧ t.pc = s.pc ∧
        (i = .halt → t.status = .halted)) := by
  cases h with
  | loadprogJump b c | loadprogCopy b c => exact .inl ⟨b, c, rfl, rfl, rfl⟩
  | loadprogInvalid => exact .inr ⟨.inr ⟨_, rfl⟩, rfl, nofun⟩
  | halt => exact .inr ⟨.inl nofun, rfl, fun _ => rfl⟩
  | _ => exact .inr ⟨.inl nofun, rfl, nofun⟩

/-- Settles O24, by `effect_pc` of the instruction fetched. -/
theorem fingerAfterStep : Obligations.FingerAfterStep := by
  intro s t h
  obtain ⟨hs, ⟨hf, rfl⟩ | ⟨w, hf, he⟩⟩ := step_effect h
  · exact .inl ⟨hf, rfl⟩
  refine .inr ⟨w, hf, ?_⟩
  obtain ⟨b, c, hd, hstatus, hpc⟩ | ⟨hother, hpc, hhalt⟩ := effect_pc he
  · exact .inl ⟨b, c, hd, hstatus.trans hs, hpc⟩
  · exact .inr ⟨hother.imp_right fun ⟨_, hc⟩ => by simp [hc], hpc, hhalt⟩

/-- Settles O25: a segment is never longer than the largest index. -/
theorem fingerNeverWraps : Obligations.FingerNeverWraps := by
  intro s w h
  have hlt := fetch_lt h
  rw [State.advance_pc, BitVec.toNat_add]
  exact Nat.mod_eq_of_lt hlt

theorem effect_out {i : Instr} {s t : State} (h : Effect s i t) :
    t.out = s.out ∨ ∃ c byte, i = .output c ∧ t.out = s.out ++ [byte] := by
  cases h with
  | output c _ => exact .inr ⟨c, _, rfl, rfl⟩
  | _ => exact .inl rfl

/-- Settles O49: only IN makes a request of the source, and a step that makes none takes no byte. -/
theorem environmentOnlyThroughInAndOut : Obligations.EnvironmentOnlyThroughInAndOut := by
  intro s t h
  obtain ⟨hconfig, hrequest⟩ := step_request h
  refine ⟨hconfig, ?_, ?_⟩
  · obtain ⟨-, ⟨-, rfl⟩ | ⟨w, hf, he⟩⟩ := step_effect h
    · exact .inl rfl
    · obtain hout | ⟨c, byte, hd, hout⟩ := effect_out he
      · exact .inl hout
      · exact .inr ⟨w, c, byte, hf, hd, hout⟩
  · obtain ⟨-, hp⟩ | ⟨b, -, hr, hp⟩ | ⟨-, -, hp⟩ := hrequest
    · exact .inl hp
    · obtain ⟨-, ⟨w, c, hf, hd⟩, -⟩ := request?_some hr
      exact .inr ⟨w, c, hf, hd, hp⟩
    · exact .inl hp

/-- The state with some bytes emitted before all others. -/
def State.prependOut (before : List Byte) (s : State) : State := { s with out := before ++ s.out }

/-- The state with another input source, of which so many bytes have been taken. -/
def State.withInput (source : InputSource) (taken : Nat) (s : State) : State :=
  { s with config := { s.config with input := source }, inPos := taken }

/-- No condition and no result of an instruction mentions `out`, and OUT only adds to its end. -/
theorem effect_prependOut {i : Instr} {s t : State} (before : List Byte) (h : Effect s i t) :
    Effect (s.prependOut before) i (t.prependOut before) := by
  cases h with
  | output c hc =>
    have hemit : (s.emit (lowByte (s.reg c))).prependOut before = (s.prependOut before).emit (lowByte (s.reg c)) := by
      simp [State.prependOut, State.emit]
    rw [hemit]
    exact .output c hc
  | _ => constructor <;> assumption

/-- No condition of an instruction but IN mentions the input source. -/
theorem effect_withInput {i : Instr} {s t : State} (source : InputSource) (taken : Nat) (hi : ∀ c, i ≠ .input c)
    (h : Effect s i t) : Effect (s.withInput source taken) i (t.withInput source taken) := by
  cases h with
  | inputByte c | inputExhausted c => exact absurd rfl (hi c)
  | _ => constructor <;> assumption

/-- Settles O50, by the two lemmas before it. -/
theorem environmentNotRead : Obligations.EnvironmentNotRead :=
  ⟨fun _ _ _ before h => effect_exec (effect_prependOut before (exec_effect h)),
    fun _ _ _ source taken hi h => effect_exec (effect_withInput source taken hi (exec_effect h))⟩

end Sys2Proof.Machine
end

section
/-! PROOF. A segment as the sequence of words of R19 (log entry 6). -/

namespace Sys2Proof.Machine

@[simp] theorem Segment.words_length (g : Segment) : g.words.length = g.len.toNat := by simp [Segment.words]

theorem Segment.words_getElem? (g : Segment) (i : Nat) :
    g.words[i]? = if i < g.len.toNat then some (g.word i) else none := by
  by_cases hi : i < g.len.toNat <;> simp [Segment.words, hi]

theorem Segment.words_zeros (n : Word) : (Segment.zeros n).words = List.replicate n.toNat 0#32 := by
  apply List.ext_getElem?
  intro i
  rw [Segment.words_getElem?, List.getElem?_replicate, Segment.zeros_len, Segment.zeros_word]

theorem Segment.words_write (g : Segment) (i : Nat) (v : Word) : (g.write i v).words = g.words.set i v := by
  apply List.ext_getElem?
  intro j
  rw [Segment.words_getElem?, List.getElem?_set, Segment.words_getElem?, Segment.write_len, Segment.write_word,
    Segment.words_length]
  by_cases hj : j = i
  · subst hj; simp
  · simp [hj, Ne.symm hj]

theorem Segment.words_ofWords {ws : List Word} (h : ws.length < Config.programLimit) : (Segment.ofWords ws).words = ws := by
  apply List.ext_getElem?
  intro i
  rw [Segment.words_getElem?, Segment.ofWords_len ws h, Segment.ofWords_word]
  by_cases hi : i < ws.length
  · simp [hi]
  · simp [hi]

/-- Settles O42, one clause for each lemma about `Segment.words`. -/
theorem segmentRefinesWordSequence : Obligations.SegmentRefinesWordSequence :=
  ⟨Segment.words_zeros, fun g i v _ => g.words_write i v, fun _ h => Segment.words_ofWords h,
    fun g i hi => by rw [Segment.words_getElem?, if_pos hi], Segment.words_length⟩

/-- The word listed at the head is found under its index. -/
theorem lookupCell_head (k : Nat) (v : Word) (rest : List (Nat × Word)) : lookupCell ((k, v) :: rest) k = v := by
  simp [lookupCell]

theorem lookupCell_tail {k j : Nat} (v : Word) (rest : List (Nat × Word)) (h : k ≠ j) :
    lookupCell ((k, v) :: rest) j = lookupCell rest j := by
  simp [lookupCell, h]

theorem cellsCanonical_cons {lo hi k : Nat} {v : Word} {rest : List (Nat × Word)} :
    cellsCanonical lo hi ((k, v) :: rest) = true ↔
      lo ≤ k ∧ k < hi ∧ v ≠ unlistedWord ∧ cellsCanonical (k + 1) hi rest = true := by
  simp [cellsCanonical, and_assoc]

/-- Below its first index a canonical list reads as zero, and so it does at and past its bound. -/
theorem lookupCell_outside {lo hi i : Nat} {cells : List (Nat × Word)} (h : cellsCanonical lo hi cells = true)
    (hout : i < lo ∨ hi ≤ i) : lookupCell cells i = unlistedWord :=
  lookupCell_of_not_listed fun p hp => by
    have := cellsCanonical_range h p hp
    omega

/-- The first index at which one canonical list reads as something else than zero is the first of the other too. -/
theorem head_le_of_lookup_eq {lo hi lo' hi' k k' : Nat} {v v' : Word} {rest rest' : List (Nat × Word)}
    (h : cellsCanonical lo hi ((k, v) :: rest) = true) (h' : cellsCanonical lo' hi' ((k', v') :: rest') = true)
    (heq : lookupCell ((k, v) :: rest) k = lookupCell ((k', v') :: rest') k) : k' ≤ k := by
  obtain ⟨_, _, hv, _⟩ := cellsCanonical_cons.mp h
  obtain ⟨_, hlt, hv', hrest⟩ := cellsCanonical_cons.mp h'
  by_contra hk
  have hout := lookupCell_outside (i := k) (cellsCanonical_cons.mpr ⟨Nat.le_refl k', hlt, hv', hrest⟩) (.inl (by omega))
  rw [lookupCell_head, hout] at heq
  exact hv heq

/-- Canonical lists that read alike are equal. -/
theorem cellsCanonical_ext {lo lo' hi hi' : Nat} {cells cells' : List (Nat × Word)}
    (h : cellsCanonical lo hi cells = true) (h' : cellsCanonical lo' hi' cells' = true)
    (heq : ∀ i, lookupCell cells i = lookupCell cells' i) : cells = cells' := by
  induction cells generalizing lo lo' cells' with
  | nil =>
    cases cells' with
    | nil => rfl
    | cons p' rest' =>
      obtain ⟨_, _, hv, _⟩ := cellsCanonical_cons.mp h'
      exact absurd ((heq p'.1).trans (lookupCell_head ..)).symm hv
  | cons p rest ih =>
    obtain ⟨k, v⟩ := p
    obtain ⟨_, _, hv, hrest⟩ := cellsCanonical_cons.mp h
    cases cells' with
    | nil => exact absurd ((lookupCell_head ..).symm.trans (heq k)) hv
    | cons p' rest' =>
      obtain ⟨k', v'⟩ := p'
      obtain ⟨_, _, _, hrest'⟩ := cellsCanonical_cons.mp h'
      obtain rfl : k = k' :=
        Nat.le_antisymm (head_le_of_lookup_eq h' h (heq k').symm) (head_le_of_lookup_eq h h' (heq k))
      obtain rfl : v = v' := by simpa only [lookupCell_head] using heq k
      congr 1
      refine ih hrest hrest' fun i => ?_
      by_cases hk : k = i
      · subst hk
        rw [lookupCell_outside hrest (.inl (Nat.lt_succ_self k)), lookupCell_outside hrest' (.inl (Nat.lt_succ_self k))]
      · simpa only [lookupCell_tail _ _ hk] using heq i

/-- Settles O43: segments with the same words have the same length and read alike at every index, past the length too. -/
theorem equalWordsEqualSegments : Obligations.EqualWordsEqualSegments := by
  intro g g' hg hg' hwords
  have hlen : g.len = g'.len := BitVec.eq_of_toNat_eq (by simpa using congrArg List.length hwords)
  have hcells : g.cells = g'.cells := by
    refine cellsCanonical_ext hg hg' fun i => ?_
    have hi := congrArg (·[i]?) hwords
    simp only [Segment.words_getElem?, hlen] at hi
    split at hi
    · exact Option.some.inj hi
    · next hout =>
      rw [lookupCell_outside hg (.inr (by rw [hlen]; omega)), lookupCell_outside hg' (.inr (by omega))]
  exact congrArg₂ Segment.mk hlen hcells

end Sys2Proof.Machine
end

section
/-! PROOF. The registers an instruction reads and writes (R12): its outcome with another register file that
agrees on those it reads. -/

namespace Sys2Proof.Machine

/-- The state with another register file. -/
def State.withRegs (s : State) (file : Vector Word Config.numRegs) : State := { s with regs := file }

section
variable (s : State) (file : Vector Word Config.numRegs)

@[simp] theorem State.withRegs_mem : (s.withRegs file).mem = s.mem := rfl
@[simp] theorem State.withRegs_config : (s.withRegs file).config = s.config := rfl
@[simp] theorem State.withRegs_take : (s.withRegs file).take = s.take := rfl

end

/-- The register file after an instruction that leads to `t` has written, of `file`, the register `written`. -/
def writeBack (file : Vector Word Config.numRegs) (t : State) : Option RegIdx → Vector Word Config.numRegs
  | some q => file.set q (t.reg q)
  | none => file

theorem writeBack_get (file : Vector Word Config.numRegs) (t : State) (written : Option RegIdx) (q : RegIdx) :
    (writeBack file t written)[q] = if written = some q then t.reg q else file[q] := by
  cases written with
  | none => simp [writeBack]
  | some r =>
    by_cases hr : r = q
    · subst hr; simp [writeBack]
    · have hne : r.val ≠ q.val := fun h => hr (Fin.ext h)
      simp [writeBack, hr, hne]

/-- Writing a register and exchanging the file, in either order. -/
theorem withRegs_setReg (s : State) (file : Vector Word Config.numRegs) (r : RegIdx) (v : Word) :
    (s.setReg r v).withRegs (writeBack file (s.setReg r v) (some r)) = (s.withRegs file).setReg r v := by
  simp only [writeBack, State.setReg_reg_same]
  rfl

/-- The outcome with the next state, if it is one, replaced. -/
def mapNext (f : State → State) : Result → Result
  | .next t => .next (f t)
  | .fault r => .fault r
  | .refused r => .refused r

/-- With another register file that agrees on the registers it reads, an instruction has the same outcome, the register it
writes being written in that file. The cases are those of each meaning, the stuck ones among them. -/
theorem exec_withRegs {i : Instr} {s : State} {file : Vector Word Config.numRegs}
    (hread : ∀ q ∈ regsRead s i, (s.withRegs file).reg q = s.reg q) :
    exec i (s.withRegs file) = mapNext (fun t => t.withRegs (writeBack file t (regWritten s i))) (exec i s) := by
  cases i with
  | cmov a b c =>
    by_cases h0 : s.reg c = 0#32
    · have hc := hread c (by simp [regsRead, h0])
      simp only [exec, regWritten, h0, if_true, execCmov_stays a b h0, execCmov_stays a b (hc.trans h0)]
      rfl
    · have hc := hread c (by simp [regsRead, h0])
      have hb := hread b (by simp [regsRead, h0])
      rw [exec, exec, execCmov_moves a b h0, execCmov_moves a b (hc ▸ h0)]
      simp only [mapNext, regWritten, h0, if_false, withRegs_setReg, hb]
  | aidx a b c =>
    have hb := hread b (by simp [regsRead])
    have hc := hread c (by simp [regsRead])
    simp only [exec, execAidx, hb, hc, State.withRegs_mem]
    cases ha : s.mem.access (s.reg b) (s.reg c) with
    | error f => simp only [regWritten, Memory.read, ha]; rfl
    | ok g => simp only [regWritten, Memory.read, ha, mapNext, Option.isSome_some, if_true, withRegs_setReg]
  | amend a b c =>
    have ha := hread a (by simp [regsRead])
    have hb := hread b (by simp [regsRead])
    have hc := hread c (by simp [regsRead])
    simp only [exec, execAmend, ha, hb, hc, State.withRegs_mem]
    cases s.mem.access (s.reg a) (s.reg b) with
    | error f => rfl
    | ok g => rfl
  | add a b c | mul a b c | nand a b c =>
    have hb := hread b (by simp [regsRead])
    have hc := hread c (by simp [regsRead])
    simp only [exec, execAdd, execMul, execNand, hb, hc, mapNext, regWritten, withRegs_setReg]
  | div a b c =>
    have hb := hread b (by simp [regsRead])
    have hc := hread c (by simp [regsRead])
    simp only [exec, execDiv, hb, hc, regWritten]
    split
    · rfl
    · simp only [mapNext, withRegs_setReg]
  | alloc b c =>
    have hc := hread c (by simp [regsRead])
    simp only [exec, execAlloc, hc, State.withRegs_mem, State.withRegs_config]
    cases s.mem.newHandle with
    | none => rfl
    | some p =>
      dsimp only
      split
      · exact congrArg _ (withRegs_setReg (s.setMem _) file b _).symm
      · rfl
  | abandon c =>
    have hc := hread c (by simp [regsRead])
    simp only [exec, execAbandon, hc, State.withRegs_mem]
    (repeat' split) <;> rfl
  | output c =>
    have hc := hread c (by simp [regsRead])
    simp only [exec, execOutput, hc]
    split <;> rfl
  | input c =>
    simp only [exec, execInput, State.withRegs_take]
    cases s.take with
    | none => exact congrArg _ (withRegs_setReg ..).symm
    | some byte => exact congrArg (fun t : State => Host.Outcome.next t.countByte) (withRegs_setReg s file c _).symm
  | loadprog b c =>
    have hb := hread b (by simp [regsRead])
    have hc := hread c (by simp [regsRead])
    simp only [exec, execLoadprog, hb, hc, State.withRegs_mem, State.withRegs_config]
    cases s.mem.segment? (s.reg b) with
    | none => rfl
    | some g => dsimp only; (repeat' split) <;> rfl
  | ortho oa imm => exact congrArg _ (withRegs_setReg ..).symm
  | halt | nop14 | nop15 => rfl

/-- Settles O47: the outcome with the other register file is the one `exec_withRegs` gives. -/
theorem registerUseAsListed : Obligations.RegisterUseAsListed := by
  intro i s others hread
  have hexec := exec_withRegs hread
  refine ⟨fun t h => ⟨_, by rw [h] at hexec; exact hexec, ?_, fun q => ?_⟩, fun r h => by rw [h] at hexec; exact hexec⟩
  · rfl
  · exact writeBack_get ..

end Sys2Proof.Machine
end

section
/-! PROOF. Reads and writes of segment memory (R32 to R35), and what they say of the instructions that write it (R43, R44,
R49). -/

namespace Sys2Proof.Machine

/-- Settles O37: a read finds the segment in the table and checks the bound. -/
theorem readDefinedExactlyInBounds : Obligations.ReadDefinedExactlyInBounds := by
  intro m h i
  simp only [Memory.read_eq_some, Memory.segment?_eq_some]
  exact ⟨fun ⟨_, g, hg, hi, _⟩ => ⟨g, hg, hi⟩, fun ⟨g, hg, hi⟩ => ⟨_, g, hg, hi, rfl⟩⟩

/-! ### A second write of the same word -/

theorem filter_insertCell (cells : List (Nat × Word)) (i : Nat) (v : Word) :
    (insertCell cells i v).filter (fun cell => cell.1 != i) = cells.filter (fun cell => cell.1 != i) := by
  induction cells with
  | nil => simp [insertCell]
  | cons p rest ih =>
    obtain ⟨k, x⟩ := p
    unfold insertCell
    split
    · simp [List.filter_cons]
    · simp only [List.filter_cons, ih]

theorem storeCell_storeCell (cells : List (Nat × Word)) (i : Nat) (v : Word) :
    storeCell (storeCell cells i v) i v = storeCell cells i v := by
  unfold storeCell
  by_cases hv : v = unlistedWord
  · simp only [hv, if_true, List.filter_filter, Bool.and_self]
  · simp only [hv, if_false, filter_insertCell, List.filter_filter, Bool.and_self]

theorem Segment.write_write (g : Segment) (i : Nat) (v : Word) : (g.write i v).write i v = g.write i v := by
  simp only [Segment.write, storeCell_storeCell]

theorem Memory.setEntry_setEntry (m : Memory) (h : Word) (e e' : Option Segment) :
    (m.setEntry h e).setEntry h e' = m.setEntry h e' := by
  simp only [Memory.setEntry, List.set_set]

theorem Memory.write_write (m : Memory) (h i v : Word) (g : Segment) :
    (m.write h g i v).write h (g.write i.toNat v) i v = m.write h g i v := by
  simp only [Memory.write, Memory.setEntry_setEntry, Segment.write_write]

/-- A write keeps every length (R33). -/
theorem Memory.write_segment?_len {m : Memory} {h i v : Word} {g : Segment} (hg : m.segment? h = some g) (k : Word) :
    ((m.write h g i v).segment? k).map Segment.len = (m.segment? k).map Segment.len := by
  rw [Memory.write_segment? hg]
  split
  · next hk => simp [hk, hg]
  · rfl

/-- Settles O38, by `Memory.write_read` and `Memory.write_write`. -/
theorem memWriteLaw : Obligations.MemWriteLaw := by
  intro m h i v g hg hi
  refine ⟨by simp [Memory.write_read hg hi], fun k j hne => by rw [Memory.write_read hg hi, if_neg hne],
    Memory.write_segment?_len hg, Memory.setEntry_length .., rfl, fun g' hg' => ?_⟩
  rw [Memory.write_segment? hg, if_pos rfl] at hg'
  cases hg'
  exact Memory.write_write ..

/-! ### The instructions that write memory -/

/-- Reads through two handles agree where the entries are the same segment, or both none. -/
theorem Memory.read_eq_of_segment? {m m' : Memory} {h k : Word} (hs : m'.segment? k = m.segment? h) (i : Word) :
    m'.read k i = m.read h i := by
  simp only [Memory.read, Memory.access, hs]

/-- AMEND leaves every segment but the one it names (R44, R83). -/
theorem amend_segment? {a b c : RegIdx} {s t : State} {k : Word} (h : exec (.amend a b c) s = .next t)
    (hk : k ≠ s.reg a) : t.mem.segment? k = s.mem.segment? k := by
  cases exec_effect h with
  | amend a b c g hg hi => exact (Memory.write_segment? hg k).trans (if_neg hk)
  | amendInvalid | amendOutside => rfl

/-- Where LOADPROG loads a segment, it becomes segment 0 and stays under its own handle, and the finger moves (R92). -/
theorem loadprog_segment? {b c : RegIdx} {s t : State} (h : exec (.loadprog b c) s = .next t)
    (h0 : s.mem.valid 0#32 = true) (ht : t.status = .running) :
    t.mem.segment? 0#32 = s.mem.segment? (s.reg b) ∧ t.mem.segment? (s.reg b) = s.mem.segment? (s.reg b) ∧
      t.pc = s.reg c := by
  obtain ⟨g0, hg0⟩ := Memory.valid_iff.mp h0
  cases exec_effect h with
  | loadprogJump b c hb _ => exact ⟨by rw [hb]; rfl, rfl, rfl⟩
  | loadprogCopy b c g hb hg _ =>
    have copied := Memory.setEntry_segment? s.mem 0#32 (e := some g) (hh := Memory.segment?_lt hg0)
    exact ⟨(copied 0#32).trans hg.symm, (copied (s.reg b)).trans (if_neg hb), rfl⟩
  | loadprogInvalid => cases ht

/-- ALLOC puts a segment of `x[C]` zeros under the handle it issues (R90). -/
theorem alloc_segment? {b c : RegIdx} {s t : State} (hp : s.mem.PoolOk) (h : exec (.alloc b c) s = .next t) :
    t.mem.segment? (t.reg b) = some (Segment.zeros (s.reg c)) := by
  cases exec_effect h with
  | alloc b c k m hn _ =>
    obtain ⟨-, -, hlt, -⟩ := Memory.newHandle_spec hp hn
    rw [State.setReg_reg_same, State.setReg_mem, State.setMem_mem, Memory.setEntry_segment? _ _ _ _ hlt, if_pos rfl]

/-- Settles O39: each part follows from which entries of the table the instruction replaces. -/
theorem segmentsNeverAlias : Obligations.SegmentsNeverAlias := by
  refine ⟨fun a b c s t k i h hk => Memory.read_congr (amend_segment? h hk) i, ?_, ?_⟩
  · intro b c x y z s t u v _ h0 hb hload ht hu hstore
    obtain ⟨hzero, hsource, -⟩ := loadprog_segment? hload h0 ht
    rw [← hu] at hzero hsource
    exact ⟨fun hx => Memory.read_eq_of_segment? ((amend_segment? hstore (hx ▸ Ne.symm hb)).trans hzero),
      fun hx => Memory.read_eq_of_segment? ((amend_segment? hstore (hx ▸ hb)).trans hsource)⟩
  · intro b c s t hp h
    have created := alloc_segment? hp h
    refine ⟨by rw [created]; rfl, fun i v hv => ?_⟩
    obtain ⟨g, hg, -, hw⟩ := Memory.read_eq_some.mp hv
    cases created.symm.trans hg
    exact hw.symm

/-- An AMEND of the word the finger of `s` stands at, executed in a state with the memory and registers of `s`, stores it
there (R83). -/
theorem amend_at_finger {a b c : RegIdx} {s u : State} {w : Word} (hf : s.fetch = some w) (ha : s.reg a = 0#32)
    (hb : s.reg b = s.pc) (hmem : u.mem = s.mem) (hreg : ∀ q, u.reg q = s.reg q) :
    ∃ m, exec (.amend a b c) u = .next (u.setMem m) ∧ m.read 0#32 s.pc = some (s.reg c) := by
  obtain ⟨g, hg, hi, -⟩ := Memory.read_eq_some.mp hf
  refine ⟨s.mem.write 0#32 g s.pc (s.reg c), ?_, by simp [Memory.write_read hg hi]⟩
  have stores := execAmend_writes (s := u) (a := a) (b := b) (g := g) c (by rw [hmem, hreg, ha, hg])
    (by rw [hreg, hb]; exact hi)
  rwa [hmem, hreg, hreg, hreg, ha, hb] at stores

/-- Settles O40: `amend_at_finger` before the fetch and after it, and `loadprog_segment?`. -/
theorem storeSeenByNextFetch : Obligations.StoreSeenByNextFetch := by
  refine ⟨fun a b c s hs ⟨w, hf⟩ ha hb => ?_, fun a b c s w hs hf hd ha hb => ?_, fun b c s t _ h0 h ht => ?_⟩
  · obtain ⟨m, hexec, hread⟩ := amend_at_finger (c := c) hf ha hb rfl fun _ => rfl
    exact ⟨s.setMem m, hexec, step_word (s := s.setMem m) hs hread⟩
  · obtain ⟨m, hexec, hread⟩ := amend_at_finger (c := c) (u := s.advance) hf ha hb rfl fun _ => rfl
    exact ⟨s.advance.setMem m, by rw [step_word hs hf, hd, hexec], hread, hs, rfl⟩
  · obtain ⟨hzero, -, hpc⟩ := loadprog_segment? h h0 ht
    rw [State.fetch, hpc, Memory.read_eq_of_segment? hzero]

/-- An instruction that changes memory is one of four (R49). -/
theorem effect_changes_memory {i : Instr} {s t : State} (h : Effect s i t) (hne : t.mem ≠ s.mem) :
    (∃ a b c, i = .amend a b c) ∨ (∃ b c, i = .alloc b c) ∨ (∃ c, i = .abandon c) ∨ (∃ b c, i = .loadprog b c) := by
  cases h with
  | amend a b c => exact .inl ⟨a, b, c, rfl⟩
  | alloc b c => exact .inr (.inl ⟨b, c, rfl⟩)
  | abandon c => exact .inr (.inr (.inl ⟨c, rfl⟩))
  | loadprogCopy b c => exact .inr (.inr (.inr ⟨b, c, rfl⟩))
  | _ => exact absurd rfl hne

/-- Settles O48: a step that fetches no word changes the status alone, and any other has the effect of its instruction. -/
theorem memoryChangedByFourInstructions : Obligations.MemoryChangedByFourInstructions := by
  intro s t h hne
  obtain ⟨-, ⟨-, rfl⟩ | ⟨w, hf, he⟩⟩ := step_effect h
  · exact absurd rfl hne
  · exact ⟨w, hf, effect_changes_memory he hne⟩

end Sys2Proof.Machine
end

section
/-! PROOF. Storage and handles (R45): where the machine is stuck, and the words in use after a step. -/

namespace Sys2Proof.Machine

/-! ### The words in use -/

theorem fits_iff_room {s : State} {m : Memory} : m.fits s.config.capacity = true ↔ s.Room m.totalWords :=
  Memory.fits_iff

theorem Memory.fits_mono {m m' : Memory} {capacity : Option Nat} (hle : m'.totalWords ≤ m.totalWords)
    (hf : m.fits capacity = true) : m'.fits capacity = true :=
  Memory.fits_iff.mpr fun limit hlimit => hle.trans (Memory.fits_iff.mp hf limit hlimit)

theorem Memory.free_totalWords {m : Memory} {h : Word} {g : Segment} (hg : m.segment? h = some g) :
    (m.free h).totalWords + g.len.toNat = m.totalWords :=
  Memory.setEntry_totalWords (Memory.segment?_eq_some.mp hg) none

/-- The words in use after one segment takes the place of another. -/
theorem Memory.replaced_totalWords {m : Memory} {h : Word} {g : Segment} (hg : m.segment? h = some g) (g' : Segment) :
    (m.setEntry h (some g')).totalWords = m.totalWords - g.len.toNat + g'.len.toNat := by
  have without := Memory.free_totalWords hg
  have replaced : _ + g.len.toNat = m.totalWords + g'.len.toNat :=
    Memory.setEntry_totalWords (Memory.segment?_eq_some.mp hg) (some g')
  omega

theorem Memory.write_totalWords {m : Memory} {h i v : Word} {g : Segment} (hg : m.segment? h = some g) :
    (m.write h g i v).totalWords = m.totalWords :=
  Nat.add_right_cancel (Memory.setEntry_totalWords (Memory.segment?_eq_some.mp hg) (some (g.write i.toNat v)))

/-- The words in use after a segment of `n` words is created under a new handle. -/
theorem Memory.allocated_totalWords {m m' : Memory} {h : Word} (hp : m.PoolOk) (hn : m.newHandle = some (h, m'))
    (n : Word) : (m'.setEntry h (some (Segment.zeros n))).totalWords = m.totalWords + n.toNat := by
  obtain ⟨-, -, -, hnone, -, -, -, htotal, -⟩ := Memory.newHandle_spec hp hn
  exact (Memory.setEntry_totalWords hnone _).trans (by rw [htotal]; rfl)

/-- An instruction that completes leaves the words in use within the capacity: ALLOC and LOADPROG check it, AMEND keeps
their number, and ABANDON lowers it. -/
theorem effect_withinCapacity {i : Instr} {s t : State} (h : Effect s i t) (hs : s.WithinCapacity) :
    t.WithinCapacity := by
  cases h with
  | amend a b c g hg _ => exact Memory.fits_mono (Memory.write_totalWords hg).le hs
  | alloc b c k m _ hf => exact hf
  | abandon c _ hv =>
    obtain ⟨g, hg⟩ := Memory.valid_iff.mp hv
    exact Memory.fits_mono (Nat.le_of_add_right_le (Memory.free_totalWords hg).le) hs
  | loadprogCopy b c g _ _ hf => exact hf
  | _ => exact hs

/-- Settles O36: a step that fetches no word leaves memory as it is, and any other has the effect of its instruction. -/
theorem capacityKept : Obligations.CapacityKept := by
  intro s t _ hs h
  obtain ⟨-, ⟨-, rfl⟩ | ⟨w, -, he⟩⟩ := step_effect h
  · exact hs
  · exact effect_withinCapacity (s := s.advance) he hs

/-! ### Where the machine is stuck -/

/-- Every instruction but ALLOC and LOADPROG has a next state in every state. -/
theorem exec_next {i : Instr} (s : State) (ha : ∀ b c, i ≠ .alloc b c) (hl : ∀ b c, i ≠ .loadprog b c) :
    ∃ t, exec i s = .next t := by
  cases i with
  | alloc b c => exact absurd rfl (ha b c)
  | loadprog b c => exact absurd rfl (hl b c)
  | aidx | amend | div | abandon | output | input =>
    simp only [exec, execAidx, execAmend, execDiv, execAbandon, execOutput, execInput]
    (repeat' split) <;> exact ⟨_, rfl⟩
  | cmov | add | mul | nand | halt | ortho | nop14 | nop15 => exact ⟨_, rfl⟩

/-- ALLOC has a next state where a handle is left and the memory with the new segment is within the capacity; otherwise
none. -/
theorem alloc_stuck_iff {b c : RegIdx} {s : State} (hp : s.mem.PoolOk) :
    (∃ r, exec (.alloc b c) s = .fault r) ↔ ¬ s.mem.HandleLeft ∨ ¬ s.Room (s.mem.totalWords + (s.reg c).toNat) := by
  cases hn : s.mem.newHandle with
  | none => exact iff_of_true ⟨_, execAlloc_noHandle b c hn⟩ (.inl (Memory.newHandle_none.mp hn))
  | some p =>
    obtain ⟨k, m⟩ := p
    have left : s.mem.HandleLeft := by
      by_contra hno
      cases (Memory.newHandle_none.mpr hno).symm.trans hn
    rw [← Memory.allocated_totalWords hp hn, ← fits_iff_room]
    cases hf : (m.setEntry k (some (Segment.zeros (s.reg c)))).fits s.config.capacity with
    | true => simp [exec, execAlloc_allocates b hn hf, left]
    | false => simp [exec, execAlloc_noStorage b hn hf]

/-- LOADPROG is stuck where it would copy and the memory with the copy is not within the capacity. -/
theorem loadprog_stuck_iff {b c : RegIdx} {s : State} {g0 : Segment} (hg0 : s.mem.segment? 0#32 = some g0) :
    (∃ r, exec (.loadprog b c) s = .fault r) ↔ ∃ g, s.reg b ≠ 0#32 ∧ s.mem.segment? (s.reg b) = some g ∧
      ¬ s.Room (s.mem.totalWords - g0.len.toNat + g.len.toNat) := by
  cases hg : s.mem.segment? (s.reg b) with
  | none => simp [exec, execLoadprog_invalid c hg]
  | some g =>
    by_cases hb : s.reg b = 0#32
    · simp [exec, execLoadprog_jumps c hb hg0, hb]
    · simp only [Option.some.injEq, exists_eq_left', ← Memory.replaced_totalWords hg0, ← fits_iff_room, hb, ne_eq,
        not_false_eq_true, true_and]
      cases hf : (s.mem.setEntry 0#32 (some g)).fits s.config.capacity with
      | true => simp [exec, execLoadprog_loads c hb hg hf]
      | false => simp [exec, execLoadprog_noStorage c hb hg hf]

/-- Settles O33: ALLOC and LOADPROG by the two lemmas before it, every other instruction by `exec_next`. -/
theorem stuckExactly : Obligations.StuckExactly := by
  intro i s g0 hp hg0
  have others := exec_next (i := i) s
  cases i with
  | alloc b c => simp [alloc_stuck_iff hp]
  | loadprog b c => simp [loadprog_stuck_iff hg0]
  | _ =>
    obtain ⟨t, ht⟩ := others nofun nofun
    simp [ht]

/-- With unbounded storage and a handle left, every instruction has a next state. -/
theorem exec_next_of_unbounded (i : Instr) {s : State} (hc : s.config.capacity = none) (hl : s.mem.HandleLeft) :
    ∃ t, exec i s = .next t := by
  have fits (m : Memory) : m.fits s.config.capacity = true := by rw [hc]; rfl
  cases i with
  | alloc b c =>
    obtain ⟨m, hn⟩ := Memory.newHandle_of_left hl
    exact ⟨_, execAlloc_allocates b hn (fits _)⟩
  | loadprog b c =>
    cases hg : s.mem.segment? (s.reg b) with
    | none => exact ⟨_, execLoadprog_invalid c hg⟩
    | some g =>
      by_cases hb : s.reg b = 0#32
      · exact ⟨_, execLoadprog_jumps c hb (hb ▸ hg)⟩
      · exact ⟨_, execLoadprog_loads c hb hg (fits _)⟩
  | _ => exact exec_next s nofun nofun

/-- Settles O34: the step raises a fault where there is no word, and otherwise executes an instruction. -/
theorem unboundedMachineGoesOn : Obligations.UnboundedMachineGoesOn := by
  intro s hs hc hl
  cases hf : s.fetch with
  | none => exact ⟨_, step_noWord hs hf⟩
  | some w =>
    rw [step_word hs hf]
    exact exec_next_of_unbounded (decode w) (s := s.advance) hc hl

end Sys2Proof.Machine
end

section
/-! PROOF. The words of a program image (R46). -/

namespace Sys2Proof

/-- A byte shifted by at most three bytes loses no bit of the word. -/
theorem byte_shiftLeft_toNat (b : Byte) {n : Nat} (hn : n ≤ 24) : (b.zeroExtend 32 <<< n).toNat = b.toNat * 2 ^ n := by
  have hlt : b.toNat <<< n < 2 ^ 32 :=
    (Nat.shiftLeft_lt b.isLt).trans_le (Nat.pow_le_pow_right (by decide) (by omega))
  rw [BitVec.toNat_shiftLeft, BitVec.toNat_setWidth_of_le (by decide), Nat.mod_eq_of_lt hlt, Nat.shiftLeft_eq]

/-- The four bytes joined do not overlap. -/
theorem beWord_toNat (b0 b1 b2 b3 : Byte) :
    (beWord b0 b1 b2 b3).toNat = b0.toNat * 2 ^ 24 + b1.toNat * 2 ^ 16 + b2.toNat * 2 ^ 8 + b3.toNat := by
  have h0 := b0.isLt
  have h1 := b1.isLt
  have h2 := b2.isLt
  have h3 := b3.isLt
  have low := Nat.two_pow_add_eq_or_of_lt (i := 8) h3 b2.toNat
  have middle := Nat.two_pow_add_eq_or_of_lt (i := 16) (b := 2 ^ 8 * b2.toNat + b3.toNat) (by omega) b1.toNat
  have high := Nat.two_pow_add_eq_or_of_lt (i := 24) (b := 2 ^ 16 * b1.toNat + (2 ^ 8 * b2.toNat + b3.toNat))
    (by omega) b0.toNat
  rw [beWord, BitVec.toNat_or, BitVec.toNat_or, BitVec.toNat_or, byte_shiftLeft_toNat b0 (by decide),
    byte_shiftLeft_toNat b1 (by decide), byte_shiftLeft_toNat b2 (by decide), BitVec.toNat_setWidth_of_le (by decide),
    Nat.or_assoc, Nat.or_assoc, Nat.mul_comm b0.toNat, Nat.mul_comm b1.toNat, Nat.mul_comm b2.toNat, ← low, ← middle,
    ← high]
  omega

theorem imageWords_length : ∀ image : List Byte, (imageWords image).length = image.length / 4
  | b0 :: b1 :: b2 :: b3 :: rest => by
    have ih := imageWords_length rest
    simp only [imageWords, List.length_cons]
    omega
  | [] | [_] | [_, _] | [_, _, _] => by simp [imageWords]

/-- Word `k` of an image, while the image has the four bytes of it (R46). -/
theorem imageWords_getElem? : ∀ (image : List Byte) (k : Nat), 4 * k + 3 < image.length →
    (imageWords image)[k]? = some (beWord (image.getD (4 * k) 0#8) (image.getD (4 * k + 1) 0#8)
      (image.getD (4 * k + 2) 0#8) (image.getD (4 * k + 3) 0#8))
  | _ :: _ :: _ :: _ :: _, 0, _ => rfl
  | _ :: _ :: _ :: _ :: rest, k + 1, hk =>
    imageWords_getElem? rest k (by simp only [List.length_cons] at hk; omega)
  | [], _, hk | [_], _, hk | [_, _], _, hk | [_, _, _], _, hk => by
    simp only [List.length_cons, List.length_nil] at hk
    omega

/-- Settles O54: the words are counted and found by recursion on the image, and the value of each is `beWord_toNat`. -/
theorem imageWordsBigEndian : Obligations.ImageWordsBigEndian :=
  fun image => ⟨imageWords_length image, fun k hk => ⟨_, imageWords_getElem? image k hk, beWord_toNat ..⟩⟩

end Sys2Proof
end

section
/-! PROOF. The encoding (R53 to R60): a word restricted to the fields an instruction uses is an encoding of those
fields, so the decoder answers an instruction exactly where the fields are the instruction's. The assembler (R59), and that
nothing is refused (R53, R57). -/

namespace Sys2Proof

open Machine

/-! ### Words and their fields (R51, R52, R60) -/

/-- Bits 27 to 9 of a standard encoding are clear. -/
theorem ignored_encStd (op : BitVec 4) (a b c : RegIdx) : (encStd op a b c).extractLsb' 9 19 = 0#19 := by
  apply BitVec.eq_of_toNat_eq
  rw [BitVec.extractLsb'_toNat, encStd_toNat, Nat.shiftRight_eq_div_pow]
  have := regIdx_lt a; have := regIdx_lt b; have := regIdx_lt c
  simp only [BitVec.toNat_ofNat]
  omega

/-- A word whose bits 27 to 9 are clear is the standard encoding of its own fields. -/
theorem encStd_fields {w : Word} (h : w.extractLsb' 9 19 = 0#19) :
    encStd (opField w) (aField w) (bField w) (cField w) = w := by
  have hmid : w.toNat / 2 ^ 9 % 2 ^ 19 = 0 := by
    simpa [BitVec.extractLsb'_toNat, Nat.shiftRight_eq_div_pow] using congrArg BitVec.toNat h
  have := w.isLt
  apply BitVec.eq_of_toNat_eq
  rw [encStd_toNat, opField_toNat, aField_val, bField_val, cField_val]
  omega

theorem opField_and (w mask : Word) : opField (w &&& mask) = opField w &&& opField mask := BitVec.extractLsb'_and

theorem aField_and (w mask : Word) : aField (w &&& mask) = aField w &&& aField mask := by
  rw [aField, BitVec.extractLsb'_and, BitVec.toFin_and, ← aField, ← aField]

theorem bField_and (w mask : Word) : bField (w &&& mask) = bField w &&& bField mask := by
  rw [bField, BitVec.extractLsb'_and, BitVec.toFin_and, ← bField, ← bField]

theorem cField_and (w mask : Word) : cField (w &&& mask) = cField w &&& cField mask := by
  rw [cField, BitVec.extractLsb'_and, BitVec.toFin_and, ← cField, ← cField]

/-- A mask written as a standard encoding masks each field by the mask's own. -/
theorem and_encStd (w : Word) (op : BitVec 4) (a b c : RegIdx) :
    w &&& encStd op a b c = encStd (opField w &&& op) (aField w &&& a) (bField w &&& b) (cField w &&& c) := by
  have hclear : (w &&& encStd op a b c).extractLsb' 9 19 = 0#19 := by
    rw [BitVec.extractLsb'_and, ignored_encStd, BitVec.and_zero]
  rw [← encStd_fields hclear, opField_and, aField_and, bField_and, cField_and, opField_encStd, aField_encStd,
    bField_encStd, cField_encStd]

theorem opcode_and_fifteen : ∀ op : BitVec 4, op &&& 15#4 = op := by decide

theorem regIdx_and_seven : ∀ r : RegIdx, r &&& 7 = r := by decide

theorem regIdx_and_zero : ∀ r : RegIdx, r &&& 0 = 0 := by decide

/-- The bits used with the fields A, B and C. -/
theorem and_mask_abc (w : Word) : w &&& 0xF00001FF#32 = encStd (opField w) (aField w) (bField w) (cField w) := by
  rw [show 0xF00001FF#32 = encStd 15#4 7 7 7 by decide, and_encStd]
  simp only [opcode_and_fifteen, regIdx_and_seven]

/-- The bits used with the fields B and C. -/
theorem and_mask_bc (w : Word) : w &&& 0xF000003F#32 = encStd (opField w) 0 (bField w) (cField w) := by
  rw [show 0xF000003F#32 = encStd 15#4 0 7 7 by decide, and_encStd]
  simp only [opcode_and_fifteen, regIdx_and_seven, regIdx_and_zero]

/-- The bits used with the field C. -/
theorem and_mask_c (w : Word) : w &&& 0xF0000007#32 = encStd (opField w) 0 0 (cField w) := by
  rw [show 0xF0000007#32 = encStd 15#4 0 0 7 by decide, and_encStd]
  simp only [opcode_and_fifteen, regIdx_and_seven, regIdx_and_zero]

/-- The bits used without an operand. -/
theorem and_mask_op (w : Word) : w &&& 0xF0000000#32 = encStd (opField w) 0 0 0 := by
  rw [show 0xF0000000#32 = encStd 15#4 0 0 0 by decide, and_encStd]
  simp only [opcode_and_fifteen, regIdx_and_zero]

/-- A word of the orthography format is the encoding of its own fields. -/
theorem encOrtho_fields {w : Word} (h : opField w = 13#4) : encOrtho (oaField w) (immField w) = w := by
  have hop : w.toNat / 2 ^ 28 % 16 = 13 := by rw [← opField_toNat, h]; rfl
  have := w.isLt
  apply BitVec.eq_of_toNat_eq
  rw [encOrtho_toNat, oaField_val, immField_toNat]
  omega

/-- Fields determine a word of the orthography format. -/
theorem eq_encOrtho_iff {w : Word} {oa : RegIdx} {imm : BitVec 25} :
    w = encOrtho oa imm ↔ opField w = 13#4 ∧ oaField w = oa ∧ immField w = imm := by
  constructor
  · rintro rfl
    exact ⟨opField_encOrtho .., oaField_encOrtho .., immField_encOrtho ..⟩
  · rintro ⟨hop, rfl, rfl⟩
    exact (encOrtho_fields hop).symm

/-- Settles O3: the values and the fields are those of Laws/Encoding.lean, and each converse is a lemma above. -/
theorem encodingFieldsRoundTrip : Obligations.EncodingFieldsRoundTrip := by
  refine ⟨fun op a b c => ⟨?_, opField_encStd .., aField_encStd .., bField_encStd .., cField_encStd ..⟩,
    fun oa imm => ⟨?_, opField_encOrtho .., oaField_encOrtho .., immField_encOrtho ..⟩,
    fun w => encOrtho_fields, fun w => (and_mask_abc w).symm⟩
  · rw [← encStd_toNat, BitVec.ofNat_toNat, BitVec.setWidth_eq]
  · rw [← encOrtho_toNat, BitVec.ofNat_toNat, BitVec.setWidth_eq]

/-! ### The decoder (R55 to R58) -/

/-- Settles O1: the decoder finds the opcode of the row and the operands in the fields they were put in. -/
theorem decodeEncodeRoundTrip : Obligations.DecodeEncodeRoundTrip := by
  intro i
  cases i with
  | ortho oa imm => simp only [encode, decode, opField_encOrtho, oaField_encOrtho, immField_encOrtho]
  | _ => simp [encode, decode, opField_encStd, aField_encStd, bField_encStd, cField_encStd]

/-- The instruction a word decodes to is of the row that the opcode field selects (R58). -/
theorem opcode_decode (w : Word) : Laws.TableRow.opcode (decode w) = opField w := by
  unfold decode
  generalize opField w = op
  obtain ⟨n, hn⟩ := op
  interval_cases n <;> rfl

/-- To know what a word decodes to, one may take the row as given and compare the operands. -/
theorem decode_eq_iff {w : Word} {i : Instr} {operands : Prop}
    (h : opField w = Laws.TableRow.opcode i → (decode w = i ↔ operands)) :
    decode w = i ↔ opField w = Laws.TableRow.opcode i ∧ operands := by
  constructor
  · intro hd
    have hop : opField w = Laws.TableRow.opcode i := by rw [← hd, opcode_decode]
    exact ⟨hop, (h hop).mp hd⟩
  · rintro ⟨hop, ho⟩
    exact (h hop).mpr ho

/-- Settles O2: on either side stand the opcode field and the fields the row uses. -/
theorem decodeExactlyWhenUsedBitsMatch : Obligations.DecodeExactlyWhenUsedBitsMatch := by
  intro w i
  cases i
  case' cmov | aidx | amend | add | mul | div | nand => rw [usedBits, and_mask_abc, encode, encStd_inj]
  case' alloc | loadprog => rw [usedBits, and_mask_bc, encode, encStd_inj]
  case' abandon | output | input => rw [usedBits, and_mask_c, encode, encStd_inj]
  case' halt | nop14 | nop15 => rw [usedBits, and_mask_op, encode, encStd_inj]
  case' ortho => rw [usedBits, show w &&& 0xFFFFFFFF#32 = w from BitVec.and_allOnes, encode, eq_encOrtho_iff]
  all_goals exact decode_eq_iff fun hop => by simp [decode, hop, Laws.TableRow.opcode]

/-- Settles O4, by running the decoder on each word. -/
theorem specWordsDecode : Obligations.SpecWordsDecode := by
  unfold Obligations.SpecWordsDecode
  decide

/-! ### The assembler (R59) -/

theorem regIdx?_val (r : RegIdx) : regIdx? r.val = some r := dif_pos r.isLt

theorem regIdx?_eq_some {n : Nat} {r : RegIdx} : regIdx? n = some r ↔ n = r.val := by
  constructor
  · intro h
    obtain ⟨_, ⟨⟩⟩ := Option.dite_none_right_eq_some.mp h
    rfl
  · rintro rfl
    exact regIdx?_val r

/-- The line of an instruction stands for it. -/
theorem instr?_toAsm (i : Instr) : i.toAsm.instr? = some i := by
  cases i with
  | ortho oa imm =>
    simp only [Instr.toAsm, AsmLine.instr?, regIdx?_val, if_pos imm.isLt, BitVec.ofNat_toNat, BitVec.setWidth_eq,
      Option.bind_eq_bind, Option.bind_some, Option.pure_def]
  | _ => simp [Instr.toAsm, AsmLine.instr?, regIdx?_val]

/-- And it is the only line that does. -/
theorem toAsm_of_instr? {l : AsmLine} {i : Instr} (h : l.instr? = some i) : i.toAsm = l := by
  unfold AsmLine.instr? at h
  split at h <;> simp only [Option.bind_eq_bind, Option.bind_eq_some_iff, regIdx?_eq_some, Option.pure_def,
    Option.some.injEq, Option.ite_none_right_eq_some, reduceCtorEq] at h
  case h_1 | h_2 | h_3 | h_4 | h_5 | h_6 | h_7 =>
    obtain ⟨a, rfl, b, rfl, c, rfl, rfl⟩ := h
    rfl
  case h_9 | h_13 =>
    obtain ⟨b, rfl, c, rfl, rfl⟩ := h
    rfl
  case h_10 | h_11 | h_12 =>
    obtain ⟨c, rfl, rfl⟩ := h
    rfl
  case h_8 | h_15 | h_16 =>
    subst h
    rfl
  case h_14 a v =>
    obtain ⟨hv, oa, rfl, rfl⟩ := h
    rw [Instr.toAsm, BitVec.toNat_ofNat, Nat.mod_eq_of_lt hv]

theorem instr?_eq_some {l : AsmLine} {i : Instr} : l.instr? = some i ↔ i.toAsm = l :=
  ⟨toAsm_of_instr?, fun h => h ▸ instr?_toAsm i⟩

/-- The line of an instruction passes the checks. -/
theorem toAsm_wf : ∀ i : Instr, i.toAsm.wf = true
  | .cmov a b c => (Laws.TableRow.cmov a b c).1
  | .aidx a b c => (Laws.TableRow.aidx a b c).1
  | .amend a b c => (Laws.TableRow.amend a b c).1
  | .add a b c => (Laws.TableRow.add a b c).1
  | .mul a b c => (Laws.TableRow.mul a b c).1
  | .div a b c => (Laws.TableRow.div a b c).1
  | .nand a b c => (Laws.TableRow.nand a b c).1
  | .halt => Laws.TableRow.halt.1
  | .alloc b c => (Laws.TableRow.alloc b c).1
  | .abandon c => (Laws.TableRow.abandon c).1
  | .output c => (Laws.TableRow.output c).1
  | .input c => (Laws.TableRow.input c).1
  | .loadprog b c => (Laws.TableRow.loadprog b c).1
  | .ortho oa imm => (Laws.TableRow.ortho oa imm).1
  | .nop14 => Laws.TableRow.nop14.1
  | .nop15 => Laws.TableRow.nop15.1

/-- Operands that name registers, as register numbers. -/
theorem registers_of_all {args : List Operand} (h : args.all Operand.isRegister = true) :
    ∃ rs : List RegIdx, args = rs.map fun r => .reg r.val := by
  induction args with
  | nil => exact ⟨[], rfl⟩
  | cons o os ih =>
    obtain ⟨ho, hos⟩ := Bool.and_eq_true_iff.mp h
    obtain ⟨rs, rfl⟩ := ih hos
    cases o with
    | reg n => exact ⟨⟨n, of_decide_eq_true ho⟩ :: rs, rfl⟩
    | imm n => contradiction

/-- A standard mnemonic with as many registers as it takes is the line of an instruction. -/
theorem toAsm_registers {m : Mnemonic} {rs : List RegIdx} (hm : m ≠ .ortho) (hc : rs.length = m.regCount) :
    ∃ i : Instr, i.toAsm = .op m (rs.map fun r => .reg r.val) :=
  match m, rs, hc with
  | .cmov, [a, b, c], _ => ⟨.cmov a b c, rfl⟩
  | .aidx, [a, b, c], _ => ⟨.aidx a b c, rfl⟩
  | .amend, [a, b, c], _ => ⟨.amend a b c, rfl⟩
  | .add, [a, b, c], _ => ⟨.add a b c, rfl⟩
  | .mul, [a, b, c], _ => ⟨.mul a b c, rfl⟩
  | .div, [a, b, c], _ => ⟨.div a b c, rfl⟩
  | .nand, [a, b, c], _ => ⟨.nand a b c, rfl⟩
  | .halt, [], _ => ⟨.halt, rfl⟩
  | .alloc, [b, c], _ => ⟨.alloc b c, rfl⟩
  | .abandon, [c], _ => ⟨.abandon c, rfl⟩
  | .output, [c], _ => ⟨.output c, rfl⟩
  | .input, [c], _ => ⟨.input c, rfl⟩
  | .loadprog, [b, c], _ => ⟨.loadprog b c, rfl⟩
  | .ortho, _, _ => absurd rfl hm
  | .nop14, [], _ => ⟨.nop14, rfl⟩
  | .nop15, [], _ => ⟨.nop15, rfl⟩

/-- An ORTHO line that passes the checks is the line of an instruction. -/
theorem toAsm_ortho {args : List Operand} (h : (AsmLine.op .ortho args).wf = true) :
    ∃ i : Instr, i.toAsm = .op .ortho args := by
  unfold AsmLine.wf at h
  split at h
  · next a v heq =>
    cases heq
    obtain ⟨ha, hv⟩ := Bool.and_eq_true_iff.mp h
    refine ⟨.ortho ⟨a, of_decide_eq_true ha⟩ (BitVec.ofNat 25 v), ?_⟩
    rw [Instr.toAsm, BitVec.toNat_ofNat, Nat.mod_eq_of_lt (of_decide_eq_true hv)]
  · contradiction
  · next hm heq =>
    cases heq
    exact absurd rfl hm
  · next heq => cases heq

theorem wf_standard {m : Mnemonic} {args : List Operand} (hm : m ≠ .ortho) :
    (AsmLine.op m args).wf = (args.length == m.regCount && args.all Operand.isRegister) := by
  cases m with
  | ortho => contradiction
  | _ => rfl

/-- The lines with a mnemonic that pass the checks are the lines of the instructions. -/
theorem wf_iff_toAsm {m : Mnemonic} {args : List Operand} :
    (AsmLine.op m args).wf = true ↔ ∃ i : Instr, i.toAsm = .op m args := by
  constructor
  · intro h
    by_cases hm : m = .ortho
    · subst hm
      exact toAsm_ortho h
    · rw [wf_standard hm, Bool.and_eq_true_iff, beq_iff_eq] at h
      obtain ⟨hc, hr⟩ := h
      obtain ⟨rs, rfl⟩ := registers_of_all hr
      exact toAsm_registers hm (by rwa [List.length_map] at hc)
  · rintro ⟨i, hi⟩
    exact hi ▸ toAsm_wf i

/-- A line that stands for an instruction assembles to its encoding. -/
theorem assemble_eq_some {m : Mnemonic} {args : List Operand} {w : Word} :
    (AsmLine.op m args).assemble = some w ↔ ∃ i : Instr, i.toAsm = .op m args ∧ encode i = w := by
  simp only [AsmLine.assemble, Option.map_eq_some_iff, instr?_eq_some]

theorem assemble_toAsm (i : Instr) : i.toAsm.assemble = some (encode i) := by
  cases i <;> exact assemble_eq_some.mpr ⟨_, rfl, rfl⟩

/-- Settles O5: with a mnemonic, both sides say that the line is an instruction's; a `.word` line is checked alike by
both. -/
theorem assemblerAcceptsExactlyWellFormed : Obligations.AssemblerAcceptsExactlyWellFormed := by
  refine ⟨fun l => ?_, fun i => ⟨instr?_toAsm i, assemble_toAsm i⟩⟩
  cases l with
  | op m args => simp [assemble_eq_some, wf_iff_toAsm]
  | data v => simp [AsmLine.assemble, AsmLine.wf]

/-! ### No refusal (R53, R57) -/

theorem exec_ne_refused (i : Instr) (s : State) (r : Refusal) : exec i s ≠ .refused r := by
  have others := exec_next (i := i) s
  cases i with
  | alloc b c =>
    cases hn : s.mem.newHandle with
    | none => simp [exec, execAlloc_noHandle b c hn]
    | some p =>
      obtain ⟨k, m⟩ := p
      cases hf : (m.setEntry k (some (Segment.zeros (s.reg c)))).fits s.config.capacity with
      | true => simp [exec, execAlloc_allocates b hn hf]
      | false => simp [exec, execAlloc_noStorage b hn hf]
  | loadprog b c =>
    cases hg : s.mem.segment? (s.reg b) with
    | none => simp [exec, execLoadprog_invalid c hg]
    | some g =>
      by_cases hb : s.reg b = 0#32
      · simp [exec, execLoadprog_jumps c hb (hb ▸ hg)]
      · cases hf : (s.mem.setEntry 0#32 (some g)).fits s.config.capacity with
        | true => simp [exec, execLoadprog_loads c hb hg hf]
        | false => simp [exec, execLoadprog_noStorage c hb hg hf]
  | _ =>
    obtain ⟨t, ht⟩ := others nofun nofun
    simp [ht]

/-- Settles O35: a step stops, raises the fault of a missing word, or answers what its instruction does. -/
theorem nothingIsRefused : Obligations.NothingIsRefused := by
  refine ⟨exec_ne_refused, fun s r => ?_⟩
  cases hs : s.status with
  | halted => simp [step, hs]
  | faulted c => simp [step, hs]
  | running =>
    cases hf : s.fetch with
    | none => simp [step_noWord hs hf]
    | some w =>
      rw [step_word hs hf]
      exact exec_ne_refused _ _ r

end Sys2Proof
end

section
/-! PROOF. The loop and the run (R65 to R73): what an instruction does to the run status, said once, and the end a run
reports. -/

namespace Sys2Proof.Machine

/-- The three things an instruction can do to the run status (R71): HALT halts; another instruction keeps the status, or
raises a fault of EXECUTE, which is never `MalformedProgram` (R114). -/
theorem effect_status {i : Instr} {s t : State} (h : Effect s i t) :
    (i = .halt ∧ t = s.halt) ∨
      (i ≠ .halt ∧ (t.status = s.status ∨ ∃ c, t = s.raise c ∧ c ≠ .malformedProgram)) := by
  cases h with
  | halt => exact .inl ⟨rfl, rfl⟩
  | aidxInvalid | aidxOutside | amendInvalid | amendOutside | divZero | abandonInvalid | outputTooLarge
  | loadprogInvalid => exact .inr ⟨nofun, .inr ⟨_, rfl, nofun⟩⟩
  | _ => exact .inr ⟨nofun, .inl rfl⟩

/-- Settles O22: the word at the finger is what FETCH finds. -/
theorem stepRunsDecoded : Obligations.StepRunsDecoded := fun _ _ hs hw => step_word hs hw

/-- What the status after a step says of its fetch and its instruction (R71), by `effect_status` of the instruction. -/
theorem step_status {s t : State} (h : step s = .next t) :
    (t.status = .faulted .malformedProgram ↔ s.fetch = none) ∧
    (t.status = .halted ↔ ∃ w, s.fetch = some w ∧ decode w = .halt) ∧
    (∀ c, t.status = .faulted c → c ≠ .malformedProgram →
      ∃ w, s.fetch = some w ∧ exec (decode w) s.advance = .next t ∧ t = s.advance.raise c) := by
  obtain ⟨hs, ⟨hf, rfl⟩ | ⟨w, hf, he⟩⟩ := step_effect h
  · simp [hf, eq_comm]
  · obtain ⟨hd, rfl⟩ | ⟨hd, hkept | ⟨c, rfl, hc⟩⟩ := effect_status he
    · simp [hf, hd]
    · simp [hf, hd, hkept, hs]
    · simp [hf, hd, hc, effect_exec he]

/-- Settles O23: a step that exists starts in `RUNNING`, and `step_status` says when it ends in another status. -/
theorem statusTransitions : Obligations.StatusTransitions := by
  refine ⟨fun s hs t h => hs (step_cases h).1, fun s hs hf => ⟨_, step_noWord hs hf, rfl⟩, fun s w hs hf hd => ?_,
    fun s t h => ⟨(step_cases h).1, step_status h⟩, fun program config s h => ?_⟩
  · exact ⟨_, (step_word hs hf).trans (hd ▸ effect_exec .halt), rfl⟩
  · obtain ⟨-, rfl⟩ := boot_eq_some.mp h
    rfl

/-- Settles O56, along the steps of the run with the smaller budget: each is a step of the run with the larger one. -/
theorem largerBudgetSameEnd : Obligations.LargerBudgetSameEnd := by
  intro n k s hover
  fun_induction run n s with
  | case1 n s hs => exact run_halted _ hs
  | case2 n s c hs => exact run_faulted _ hs
  | case3 s hs => exact absurd rfl (hover s)
  | case4 s hs n t hstep ih => rw [Nat.succ_add, run_next _ hs hstep]; exact ih hover
  | case5 s hs n r hstep => rw [Nat.succ_add]; exact run_fault _ hs hstep
  | case6 s hs n r hstep => rw [Nat.succ_add]; exact run_refused _ hs hstep

/-- The state a run ends in, or has got to, is one its steps reach. -/
theorem run_reaches (n : Nat) (s : State) : Reaches s (run n s).state := by
  fun_induction run n s with
  | case4 s hs n t hstep ih => exact .step hstep ih
  | _ => exact .refl _

/-- What an end says of its own state (R72, R73): no end is a refusal, and a budget is spent only in `RUNNING`. -/
def RunEnd.Honest : RunEnd → Prop
  | .halted t => t.status = .halted
  | .faulted c t => t.status = .faulted c
  | .stuck r t => t.status = .running ∧ step t = .fault r
  | .refused _ _ => False
  | .notFinished t => t.status = .running

theorem run_honest (n : Nat) (s : State) : (run n s).Honest := by
  fun_induction run n s with
  | case1 | case2 | case3 => assumption
  | case4 s hs n t hstep ih => exact ih
  | case5 s hs n r hstep => exact ⟨hs, hstep⟩
  | case6 s hs n r hstep => exact nothingIsRefused.2 s r hstep

/-- Settles O57: a run reports the state it has reached, and what it says of that state is so. -/
theorem runReportsItsEnd : Obligations.RunReportsItsEnd := by
  intro n s
  have hreach := run_reaches n s
  have honest := run_honest n s
  generalize run n s = e at hreach honest ⊢
  cases e with
  | refused => exact honest
  | _ => exact ⟨hreach, honest⟩

end Sys2Proof.Machine
end

section
/-! PROOF. Register moves: CMOV (R80) and ORTHO (R81). -/

namespace Sys2Proof.Machine

/-- A register write changes nothing but its register. -/
theorem setReg_frame (s : State) (r : RegIdx) (v : Word) : RegFrame s (s.setReg r v) [r] where
  regs _ hq := State.setReg_reg_other s v (List.ne_of_not_mem_cons hq)
  pc := rfl
  words _ _ := rfl
  mem := rfl
  status := rfl
  out := rfl
  inPos := rfl
  config := rfl

/-- Zero extension keeps the immediate's value (R54). -/
theorem immWord_toNat (imm : BitVec 25) : (immWord imm).toNat = imm.toNat :=
  BitVec.toNat_setWidth_of_le (by decide)

/-- Settles O6: opcode 0 adds no bit to the fields, the condition selects the effect, and a move is one register write. -/
theorem cmovMovesOnNonZero : Obligations.CmovMovesOnNonZero := by
  refine fun a b c s => ⟨?_, fun hc => ?_, fun hc => ?_⟩
  · simp [encode, encStd]
  · exact ⟨_, effect_exec (.cmovMoves a b c hc), State.setReg_reg_same .., setReg_frame ..⟩
  · exact ⟨s, effect_exec (.cmovStays a b c hc), rfl⟩

/-- Settles O7: the effect is one register write of the zero-extended immediate. -/
theorem orthoLoadsImmediate : Obligations.OrthoLoadsImmediate := by
  refine fun oa imm s => ⟨?_, _, effect_exec (.ortho oa imm), ?_, setReg_frame ..⟩
  · simp [encode, encOrtho]
  · rw [State.setReg_reg_same, immWord_toNat]

end Sys2Proof.Machine
end

section
/-! PROOF. Array access: the machine's one load, AIDX (R82), and its one store, AMEND (R83). -/

namespace Sys2Proof.Machine

/-- A handle that is not valid names no segment (R34). -/
theorem Memory.segment?_of_invalid {m : Memory} {h : Word} (hv : m.valid h = false) : m.segment? h = none :=
  Option.isNone_iff_eq_none.mp (Option.isSome_eq_false_iff.mp hv)

/-- A change of memory changes nothing else. -/
theorem setMem_frame (s : State) (m : Memory) : MemFrame s (s.setMem m) [] where
  regs _ _ := rfl
  pc := rfl
  status := rfl
  out := rfl
  inPos := rfl
  config := rfl

/-- Settles O8: in bounds the effect is one register write of the segment's word, which is what a read finds there; each
fault is an effect of its own. -/
theorem aidxReadsWord : Obligations.AidxReadsWord := by
  refine fun a b c s => ⟨?_, fun g hg hi => ?_, fun hv => ?_, fun g hg hi => ?_⟩
  · simp [encode, encStd]
  · refine ⟨_, effect_exec (.aidx a b c g hg hi), ?_, State.setReg_reg_same .., setReg_frame ..⟩
    rw [State.setReg_reg_same, Memory.read_of_segment? hg, if_pos hi]
  · exact effect_exec (.aidxInvalid a b c (Memory.segment?_of_invalid hv))
  · exact effect_exec (.aidxOutside a b c g hg hi)

/-- Settles O9: in bounds the effect is one write of memory, of which `memWriteLaw` says what it changes and what it keeps;
each fault is an effect of its own. -/
theorem amendStoresWord : Obligations.AmendStoresWord := by
  refine fun a b c s => ⟨?_, fun g hg hi => ?_, fun hv => ?_, fun g hg hi => ?_⟩
  · simp [encode, encStd]
  · obtain ⟨stored, others, lengths, size, pool, -⟩ := memWriteLaw s.mem (s.reg a) (s.reg b) (s.reg c) g hg hi
    exact ⟨_, effect_exec (.amend a b c g hg hi), stored, others, lengths, size, pool, setMem_frame ..⟩
  · exact effect_exec (.amendInvalid a b c (Memory.segment?_of_invalid hv))
  · exact effect_exec (.amendOutside a b c g hg hi)

end Sys2Proof.Machine
end

section
/-! PROOF. Arithmetic: ADD (R84), MUL (R85) and DIV (R86), each one register write of the low 32 bits of its exact result
(R87). -/

namespace Sys2Proof.Machine

/-- A register that is given the exact result of an operation holds it reduced mod 2^32 (R87). -/
theorem setReg_ofNat_toNat (s : State) (r : RegIdx) (n : Nat) :
    ((s.setReg r (BitVec.ofNat 32 n)).reg r).toNat = n % 2 ^ 32 := by
  rw [State.setReg_reg_same, BitVec.toNat_ofNat]

/-- No quotient of a word is larger than the dividend, so none is cut to 32 bits: DIV has no overflow case (R86). -/
theorem quotient_mod_eq (b : Word) (n : Nat) : b.toNat / n % 2 ^ 32 = b.toNat / n :=
  Nat.mod_eq_of_lt ((Nat.div_le_self ..).trans_lt b.isLt)

/-- Settles O10: the effect is one register write of the exact sum. -/
theorem addIsSumModulo : Obligations.AddIsSumModulo := by
  refine fun a b c s => ⟨?_, _, effect_exec (.add a b c), setReg_ofNat_toNat .., setReg_frame ..⟩
  simp [encode, encStd]

/-- Settles O11: the effect is one register write of the exact product. -/
theorem mulIsProductModulo : Obligations.MulIsProductModulo := by
  refine fun a b c s => ⟨?_, _, effect_exec (.mul a b c), setReg_ofNat_toNat .., setReg_frame ..⟩
  simp [encode, encStd]

/-- Settles O12: for a divisor other than 0 the effect is one register write of the quotient, which 32 bits hold; for the
divisor 0 it is the fault. -/
theorem divIsFloorQuotient : Obligations.DivIsFloorQuotient := by
  refine fun a b c s => ⟨?_, fun hc => ?_, fun hc => ?_⟩
  · simp [encode, encStd]
  · have quotient := (setReg_ofNat_toNat s a _).trans (quotient_mod_eq (s.reg b) (s.reg c).toNat)
    exact ⟨_, effect_exec (.div a b c hc), quotient, quotient.trans_le (Nat.div_le_self ..), setReg_frame ..⟩
  · exact effect_exec (.divZero a b c hc)

end Sys2Proof.Machine
end

section
/-! PROOF. Logic: NAND (R88), one register write. -/

namespace Sys2Proof.Machine

/-- Below the word's width the complement reaches every bit, so no bit of the result comes from a narrower mask (R88). -/
theorem getLsbD_not_and (b c : Word) {k : Nat} (hk : k < 32) :
    (~~~(b &&& c)).getLsbD k = !(b.getLsbD k && c.getLsbD k) := by
  rw [BitVec.getLsbD_not, BitVec.getLsbD_and, decide_eq_true hk, Bool.true_and]

/-- Settles O13: the effect is one register write of the complement of the conjunction, which is taken bit by bit. -/
theorem nandIsBitwise : Obligations.NandIsBitwise := by
  refine fun a b c s => ⟨?_, _, effect_exec (.nand a b c), fun k hk => ?_, setReg_frame ..⟩
  · simp [encode, encStd]
  · rw [State.setReg_reg_same, getLsbD_not_and _ _ hk]

end Sys2Proof.Machine
end

section
/-! PROOF. The clean end of a run: HALT (R89). -/

namespace Sys2Proof.Machine

/-- The opcode field alone makes a word a HALT: no operand is read and bits 27-0 are ignored (R55, R56). -/
theorem decode_eq_halt {w : Word} (hop : opField w = 7#4) : decode w = .halt := by
  simp only [decode, hop]

/-- A state that has halted is final: a step leads on only from `RUNNING` (R65, R71). -/
theorem halt_step_ne_next (s u : State) : step s.halt ≠ .next u := by
  intro h
  obtain ⟨running, -⟩ := step_cases h
  cases (State.halt_status s).symm.trans running

/-- Settles O14: the opcode selects HALT, whose one effect is the status, and the state it leaves is final. -/
theorem haltEndsTheRun : Obligations.HaltEndsTheRun := by
  refine ⟨?_, fun w hop => decode_eq_halt hop, fun s => ?_⟩
  · simp [encode, encStd]
  · exact ⟨s.halt, effect_exec .halt, State.halt_status s, rfl, halt_step_ne_next s⟩

end Sys2Proof.Machine
end

section
/-! PROOF. The operations on the segment table: ALLOC (R90), ABANDON (R91) and LOADPROG (R92). -/

namespace Sys2Proof.Machine

/-- A handle that names no segment is not valid (R34). -/
theorem Memory.invalid_of_segment? {m : Memory} {h : Word} (hs : m.segment? h = none) : m.valid h = false := by
  rw [Memory.valid, hs, Option.isSome_none]

/-! ### Allocation -/

/-- The table has one entry more only where no handle waits in the pool (R93). -/
theorem Memory.newHandle_length_eq {m m' : Memory} {h : Word} (hn : m.newHandle = some (h, m')) :
    m'.seg.length = if m.pool = [] then m.seg.length + 1 else m.seg.length := by
  obtain ⟨rest, hpool, rfl⟩ | ⟨hpool, -, -, rfl⟩ := Memory.newHandle_eq_some.mp hn <;> simp [hpool]

/-- The segments after the handle just issued gets its entry: only its own differs (R90). -/
theorem Memory.allocated_segment? {m m' : Memory} {h : Word} (hp : m.PoolOk) (hn : m.newHandle = some (h, m'))
    (e : Option Segment) (k : Word) : (m'.setEntry h e).segment? k = if k = h then e else m.segment? k := by
  obtain ⟨-, -, hlt, -, hothers, -⟩ := Memory.newHandle_spec hp hn
  rw [Memory.setEntry_segment? _ _ _ _ hlt]
  split
  · rfl
  · next hk => rw [Memory.segment?, hothers k hk, Memory.segment?]

/-- A change of memory and of one register changes nothing else. -/
theorem setMem_setReg_frame (s : State) (m : Memory) (r : RegIdx) (v : Word) :
    MemFrame s ((s.setMem m).setReg r v) [r] where
  regs _ hq := State.setReg_reg_other (s.setMem m) v (List.ne_of_not_mem_cons hq)
  pc := rfl
  status := rfl
  out := rfl
  inPos := rfl
  config := rfl

/-- Settles O15: the handle is the one `NewHandle` answers, its entry becomes a segment of zeros, and the words in use after
that are the ones there is room for. -/
theorem allocCreatesZeroSegment : Obligations.AllocCreatesZeroSegment := by
  refine fun b c s => ⟨by simp [encode, encStd], fun hp left room => ?_⟩
  obtain ⟨m, hn⟩ := Memory.newHandle_of_left left
  obtain ⟨nonzero, unused, -, -, -, -, hpool, -⟩ := Memory.newHandle_spec hp hn
  have hf : (m.setEntry s.mem.nextHandle (some (Segment.zeros (s.reg c)))).fits s.config.capacity = true :=
    fits_iff_room.mpr (by rwa [Memory.allocated_totalWords hp hn])
  have segments := Memory.allocated_segment? hp hn (some (Segment.zeros (s.reg c)))
  have created := (segments s.mem.nextHandle).trans (if_pos rfl)
  have others (k : Word) (hk : k ≠ s.mem.nextHandle) := (segments k).trans (if_neg hk)
  exact ⟨_, effect_exec (.alloc b c _ m hn hf), State.setReg_reg_same .., nonzero,
    Memory.invalid_of_segment? unused, Memory.valid_iff.mpr ⟨_, created⟩, Memory.read_of_segment? created, others,
    fun k i hk => Memory.read_congr (others k hk) i, hpool,
    (Memory.setEntry_length ..).trans (Memory.newHandle_length_eq hn), setMem_setReg_frame ..⟩

/-! ### Abandonment -/

/-- Settles O16: the effect is to free the handle, of which `Memory.free_get` and `Memory.free_segment?` say what becomes of
the table; 0 and an invalid handle have the fault as their effect. -/
theorem abandonFreesSegment : Obligations.AbandonFreesSegment := by
  refine fun c s => ⟨by simp [encode, encStd], fun h0 hv => ?_, fun hbad => effect_exec (.abandonInvalid c hbad)⟩
  obtain ⟨g, hg⟩ := Memory.valid_iff.mp hv
  have inTable := Memory.segment?_lt hg
  have others (k : Word) (hk : k ≠ s.reg c) := (Memory.free_segment? inTable k).trans (if_neg hk)
  exact ⟨_, effect_exec (.abandon c h0 hv), (Memory.free_get inTable _).trans (if_pos rfl),
    Memory.invalid_of_segment? ((Memory.free_segment? inTable _).trans (if_pos rfl)), rfl,
    Memory.free_length .., others, fun k i hk => Memory.read_congr (others k hk) i, setMem_frame ..⟩

/-! ### The loading of a program -/

/-- Settles O17: handle 0 moves the finger alone; the copy is one entry of the table replaced, and the words in use after it
are the ones there is room for; an invalid handle has the fault as its effect. -/
theorem loadprogReplacesSegmentZero : Obligations.LoadprogReplacesSegmentZero := by
  refine fun b c s => ⟨by simp [encode, encStd], fun hb h0 => ?_, fun g g0 hb hg hg0 room => ?_, fun hv => ?_⟩
  · exact ⟨_, effect_exec (.loadprogJump b c hb h0), rfl, rfl⟩
  · have hf : (s.mem.setEntry 0#32 (some g)).fits s.config.capacity = true :=
      fits_iff_room.mpr (by rwa [Memory.replaced_totalWords hg0])
    have segments (k : Word) := Memory.setEntry_segment? s.mem 0#32 k (some g) (Memory.segment?_lt hg0)
    have copied := (segments 0#32).trans (if_pos rfl)
    have others (k : Word) (hk : k ≠ 0#32) := (segments k).trans (if_neg hk)
    exact ⟨_, effect_exec (.loadprogCopy b c g hb hg hf), rfl, copied,
      Memory.read_eq_of_segment? (copied.trans hg.symm), others, fun k i hk => Memory.read_congr (others k hk) i, rfl,
      Memory.setEntry_length .., setMem_frame ..⟩
  · exact effect_exec (.loadprogInvalid b c (Memory.segment?_of_invalid hv))

end Sys2Proof.Machine
end

section
/-! PROOF. Sequences of abandonments and allocations: the pool is a stack (R93). -/

namespace Sys2Proof.Machine

theorem exec_poolOk {i : Instr} {s t : State} (h : exec i s = .next t) (hp : s.mem.PoolOk) : t.mem.PoolOk :=
  (effect_memory hp.zero_valid (exec_effect h)).poolOk hp

theorem abandonEach_cons {h : Word} {rest : List Word} {s t : State}
    (he : exec (.abandon 0) (s.setReg 0 h) = .next t) (ht : t.status = .running) :
    abandonEach (h :: rest) s = abandonEach rest t := by
  simp only [abandonEach, he, ht, if_true]

theorem allocEach_succ {n : Nat} {s t u : State} {received : List Word} (he : exec (.alloc 1 2) s = .next t)
    (hrest : allocEach n t = some (received, u)) : allocEach (n + 1) s = some (t.reg 1 :: received, u) := by
  simp only [allocEach, he, hrest, Option.map_some]

/-- From `s` to `t` the pool stays in order, and the table's size, the parameters of the run and every segment whose handle
is not listed are as before. -/
structure TableFrame (s t : State) (handles : List Word) : Prop where
  poolOk : s.mem.PoolOk → t.mem.PoolOk
  length : t.mem.seg.length = s.mem.seg.length
  config : t.config = s.config
  segments : ∀ h, h ∉ handles → t.mem.segment? h = s.mem.segment? h

theorem TableFrame.nil (s : State) : TableFrame s s [] := ⟨id, rfl, rfl, fun _ _ => rfl⟩

theorem TableFrame.trans {s t u : State} {handles handles' : List Word} (h : TableFrame s t handles)
    (h' : TableFrame t u handles') : TableFrame s u (handles ++ handles') where
  poolOk hp := h'.poolOk (h.poolOk hp)
  length := h'.length.trans h.length
  config := h'.config.trans h.config
  segments k hk := by
    obtain ⟨hfirst, hsecond⟩ := not_or.mp (mt List.mem_append.mpr hk)
    exact (h'.segments k hsecond).trans (h.segments k hfirst)

/-- One abandonment of a sequence pushes its handle. -/
theorem abandon_pushes {h : Word} {s : State} (h0 : h ≠ 0#32) (hv : s.mem.valid h = true) :
    ∃ t, exec (.abandon 0) (s.setReg 0 h) = .next t ∧ t.status = s.status ∧ t.mem.pool = h :: s.mem.pool ∧
      TableFrame s t [h] := by
  obtain ⟨-, frees, -⟩ := abandonFreesSegment 0 (s.setReg 0 h)
  simp only [State.setReg_reg_same, State.setReg_mem] at frees
  obtain ⟨t, he, -, -, hpool, hlength, hothers, -, frame⟩ := frees h0 hv
  exact ⟨t, he, frame.status, hpool, exec_poolOk (s := s.setReg 0 h) he, hlength, frame.config,
    fun k hk => hothers k (List.ne_of_not_mem_cons hk)⟩

/-- One allocation of a sequence pops its handle. -/
theorem alloc_pops {h : Word} {rest : List Word} {s : State} (hp : s.mem.PoolOk) (hc : s.config.capacity = none)
    (hpool : s.mem.pool = h :: rest) :
    ∃ t, exec (.alloc 1 2) s = .next t ∧ t.reg 1 = h ∧ t.mem.pool = rest ∧ TableFrame s t [h] := by
  have left : s.mem.HandleLeft := .inl (by simp [hpool])
  have room : s.Room (s.mem.totalWords + (s.reg 2).toNat) := fun limit hlimit => by simp [hc] at hlimit
  have issued : s.mem.nextHandle = h := by simp [Memory.nextHandle, hpool]
  obtain ⟨-, allocates⟩ := allocCreatesZeroSegment 1 2 s
  obtain ⟨t, he, hreg, -, -, -, -, hothers, -, htail, hlength, frame⟩ := allocates hp left room
  simp only [issued, hpool, List.tail_cons, reduceCtorEq, if_false] at hreg hothers htail hlength
  exact ⟨t, he, hreg, htail, exec_poolOk he, hlength, frame.config,
    fun k hk => hothers k (List.ne_of_not_mem_cons hk)⟩

theorem abandonEach_pushes {handles : List Word} {s : State} (hs : s.status = .running) (hnd : handles.Nodup)
    (hv : ∀ h ∈ handles, h ≠ 0#32 ∧ s.mem.valid h = true) :
    ∃ t, abandonEach handles s = some t ∧ t.mem.pool = handles.reverse ++ s.mem.pool ∧ TableFrame s t handles := by
  induction handles generalizing s with
  | nil => exact ⟨s, rfl, rfl, .nil s⟩
  | cons h rest ih =>
    obtain ⟨hnot, hnd'⟩ := List.nodup_cons.mp hnd
    obtain ⟨⟨h0, hvalid⟩, hv'⟩ := List.forall_mem_cons.mp hv
    obtain ⟨t, he, hstatus, hpool, first⟩ := abandon_pushes h0 hvalid
    have ht := hstatus.trans hs
    have stillValid (k : Word) (hk : k ∈ rest) : k ≠ 0#32 ∧ t.mem.valid k = true := by
      have hne : k ∉ [h] := mt List.mem_singleton.mp (ne_of_mem_of_not_mem hk hnot)
      rw [Memory.valid, first.segments k hne]
      exact hv' k hk
    obtain ⟨u, hrest, hpool', frame⟩ := ih ht hnd' stillValid
    exact ⟨u, (abandonEach_cons he ht).trans hrest, by simp [hpool', hpool], first.trans frame⟩

theorem allocEach_pops {handles rest : List Word} {s : State} (hp : s.mem.PoolOk) (hc : s.config.capacity = none)
    (hpool : s.mem.pool = handles ++ rest) :
    ∃ u, allocEach handles.length s = some (handles, u) ∧ u.mem.pool = rest ∧ TableFrame s u handles := by
  induction handles generalizing s with
  | nil => exact ⟨s, rfl, hpool, .nil s⟩
  | cons h others ih =>
    obtain ⟨t, he, rfl, hpool', first⟩ := alloc_pops hp hc hpool
    obtain ⟨u, hrest, hpool'', frame⟩ := ih (first.poolOk hp) (first.config ▸ hc) hpool'
    exact ⟨u, allocEach_succ he hrest, hpool'', first.trans frame⟩

/-- Settles O41: the abandonments leave their handles, reversed, on top of the old pool, and as many allocations take
exactly these off again. -/
theorem handleReuseIsAStack : Obligations.HandleReuseIsAStack := by
  intro handles s hi hs hc hnd hv
  obtain ⟨t, habandon, hpool, freed⟩ := abandonEach_pushes hs hnd hv
  obtain ⟨u, halloc, hpool', reused⟩ := allocEach_pops (freed.poolOk hi.pool_ok) (freed.config ▸ hc) hpool
  have frame := freed.trans reused
  rw [List.length_reverse] at halloc
  exact ⟨t, u, habandon, halloc, hpool', frame.length, fun h hh => frame.segments h (by simpa using hh)⟩

end Sys2Proof.Machine
end

section
/-! PROOF. Input and output: OUT (R94) and IN (R95). -/

namespace Sys2Proof.Machine

/-- From a state to itself nothing changes. -/
theorem RegFrame.refl (s : State) (written : List RegIdx) : RegFrame s s written where
  regs _ _ := rfl
  pc := rfl
  words _ _ := rfl
  mem := rfl
  status := rfl
  out := rfl
  inPos := rfl
  config := rfl

/-- The low byte of an output value that OUT accepts is the whole value (R94). -/
theorem lowByte_toNat {v : Word} (h : v.toNat ≤ 255) : (lowByte v).toNat = v.toNat := by
  rw [lowByte, BitVec.extractLsb'_toNat, Nat.shiftRight_zero]
  exact Nat.mod_eq_of_lt (Nat.lt_succ_of_le h)

/-- Zero extension keeps the byte's value (R95). -/
theorem byteWord_toNat (b : Byte) : (byteWord b).toNat = b.toNat :=
  BitVec.toNat_setWidth_of_le (by decide)

/-- Settles O18: for a byte value the effect is to emit it, which changes `out` alone; a larger one has the fault as its
effect. -/
theorem outputEmitsOneByte : Obligations.OutputEmitsOneByte := by
  refine fun c s => ⟨?_, fun hc => ?_, fun hc => effect_exec (.outputTooLarge c hc)⟩
  · simp [encode, encStd]
  · exact ⟨_, _, effect_exec (.output c hc), lowByte_toNat hc, rfl, rfl, .refl s []⟩

/-- Settles O19: the effect is one register write, of the byte or of the sentinel, and a byte is counted beside it. -/
theorem inputReceivesByteOrSentinel : Obligations.InputReceivesByteOrSentinel := by
  refine fun c s => ⟨?_, fun byte hbyte => ?_, fun hnone => ?_⟩
  · simp [encode, encStd]
  · refine ⟨_, effect_exec (.inputByte c byte hbyte), ?_, rfl, setReg_frame s c (byteWord byte)⟩
    rw [State.countByte_reg, State.setReg_reg_same, byteWord_toNat]
  · exact ⟨_, effect_exec (.inputExhausted c hnone), State.setReg_reg_same .., setReg_frame ..⟩

end Sys2Proof.Machine
end

section
/-! PROOF. The input source along a run (R73, R96, R131): exhaustion is for ever, and the requests are answered with the
bytes of `INPUT` in order. -/

namespace Sys2Proof.Machine

/-! ### Exhaustion -/

/-- A finite source answers with the byte of `INPUT` at the position, where there is one (R96). -/
theorem take_finite {s : State} (h : s.config.input.endless = none) : s.take = s.config.input.bytes[s.inPos]? := by
  unfold State.take inputByte?
  cases s.config.input.bytes[s.inPos]? <;> simp [h]

/-- An endless source always has a byte to answer with (R96). -/
theorem not_exhausted_of_endless {s : State} {source : Nat} (h : s.config.input.endless = some source) :
    ¬ s.Exhausted := by
  unfold State.Exhausted State.take inputByte?
  cases s.config.input.bytes[s.inPos]? <;> simp [h]

/-- No step makes an exhausted source answer again: only a byte moves the position. -/
theorem step_exhausted {s t : State} (h : step s = .next t) (hs : s.Exhausted) : t.Exhausted := by
  obtain ⟨hc, ⟨-, hp⟩ | ⟨b, hb, -, -⟩ | ⟨-, -, hp⟩⟩ := step_request h
  · exact (take_congr hc hp).trans hs
  · cases hs.symm.trans hb
  · exact (take_congr hc hp).trans hs

theorem Reaches.exhausted {s t : State} (h : Reaches s t) (hs : s.Exhausted) : t.Exhausted := by
  induction h with
  | refl => exact hs
  | step hstep _ ih => exact ih (step_exhausted hstep hs)

/-- Settles O51: what the source answers is read off `INPUT`, and each step keeps its exhaustion. -/
theorem exhaustionIsPermanent : Obligations.ExhaustionIsPermanent :=
  ⟨fun _ => take_finite, fun _ _ => not_exhausted_of_endless, fun _ _ => Reaches.exhausted⟩

/-! ### The request of one step -/

/-- Settles O58: a request is made only where an IN is fetched, and what that IN receives is what `exec` gives it in the
advanced state, whose source answers as that of the state before. -/
theorem requestIsMadeByIn : Obligations.RequestIsMadeByIn := by
  refine ⟨fun s a h => ?_, fun s w c hs hf hd => ?_⟩
  · obtain ⟨running, fetched, -⟩ := request?_some h
    exact ⟨running, fetched⟩
  · have hstep : step s = exec (.input c) s.advance := hd ▸ step_word hs hf
    have hrequest := request?_input hs hf hd
    obtain ⟨-, receivesByte, receivesSentinel⟩ := inputReceivesByteOrSentinel c s.advance
    cases htake : s.take with
    | some byte =>
      obtain ⟨t, he, hreg, hpos, -⟩ := receivesByte byte htake
      exact ⟨t, hstep.trans he, .inl ⟨byte, answer_byte htake ▸ hrequest, hreg, hpos⟩⟩
    | none =>
      obtain ⟨t, he, hreg, frame⟩ := receivesSentinel htake
      exact ⟨t, hstep.trans he, .inr ⟨answer_exhausted htake ▸ hrequest, hreg, frame.inPos⟩⟩

/-! ### The requests of a run -/

/-- The requests of the run from `s`, within `n` steps, are answered with the bytes `got`, which are the next ones of
`INPUT` and are all counted, and then `spent` times with `Exhausted`. -/
structure Answered (n : Nat) (s : State) (got : List Byte) (spent : Nat) : Prop where
  answers : requests n s = got.map .byte ++ List.replicate spent .exhausted
  counted : (run n s).state.inPos = s.inPos + got.length
  bytes : ∀ j, j < got.length → inputByte? s.config.input (s.inPos + j) = got[j]?
  exhausted : spent ≠ 0 → (run n s).state.Exhausted

section
variable {n : Nat} {s t : State} {got : List Byte} {spent : Nat}

/-- A run that takes no step makes no request. -/
theorem Answered.of_no_step (hrequests : requests n s = []) (hstate : (run n s).state = s) : Answered n s [] 0 where
  answers := hrequests
  counted := by rw [hstate]; rfl
  bytes _ hj := absurd hj (Nat.not_lt_zero _)
  exhausted h := absurd rfl h

/-- An exhausted source answers with no byte. -/
theorem Answered.got_eq_nil (h : Answered n s got spent) (hs : s.Exhausted) : got = [] := by
  cases got with
  | nil => rfl
  | cons b rest => cases hs.symm.trans (h.bytes 0 (Nat.zero_lt_succ _))

/-- A step without a request adds no answer. -/
theorem Answered.step_silent (h : Answered n t got spent) (hstep : step s = .next t) (hr : s.request? = none)
    (hp : t.inPos = s.inPos) : Answered (n + 1) s got spent := by
  obtain ⟨hc, -⟩ := step_request hstep
  have hrun := run_next n (step_cases hstep).1 hstep
  obtain ⟨answers, counted, bytes, exhausted⟩ := h
  exact ⟨by simpa [requests_next n hstep, hr] using answers, by rwa [hrun, ← hp], by rwa [← hc, ← hp],
    by rwa [hrun]⟩

/-- A step that receives a byte puts it before the bytes the rest of the run receives. -/
theorem Answered.step_byte {b : Byte} (h : Answered n t got spent) (hstep : step s = .next t) (hb : s.take = some b)
    (hr : s.request? = some (.byte b)) (hp : t.inPos = s.inPos + 1) : Answered (n + 1) s (b :: got) spent where
  answers := by simp [requests_next n hstep, hr, h.answers]
  counted := by
    rw [run_next n (step_cases hstep).1 hstep, h.counted, hp, List.length_cons, Nat.add_right_comm, Nat.add_assoc]
  bytes
    | 0, _ => hb
    | j + 1, hj => by
      have hrest := h.bytes j (Nat.lt_of_succ_lt_succ hj)
      rwa [(step_request hstep).1, hp, Nat.add_right_comm] at hrest
  exhausted hspent := by
    rw [run_next n (step_cases hstep).1 hstep]
    exact h.exhausted hspent

/-- After a step that is answered `Exhausted`, the rest of the run receives nothing else. -/
theorem Answered.step_exhausted (h : Answered n t got spent) (hstep : step s = .next t) (hs : s.Exhausted)
    (hr : s.request? = some .exhausted) (hp : t.inPos = s.inPos) : Answered (n + 1) s [] (spent + 1) := by
  have ht := Machine.step_exhausted hstep hs
  obtain rfl := h.got_eq_nil ht
  have hrun := run_next n (step_cases hstep).1 hstep
  refine ⟨?_, ?_, nofun, fun _ => ?_⟩
  · simp [requests_next n hstep, hr, h.answers, List.replicate_succ]
  · rw [hrun, h.counted, hp]
  · rw [hrun]
    exact (run_reaches n t).exhausted ht

end

/-- The answers of every run are bytes of `INPUT` in order and then `Exhausted`, by what its first step asks for. -/
theorem answered (n : Nat) (s : State) : ∃ got spent, Answered n s got spent := by
  induction n generalizing s with
  | zero => exact ⟨[], 0, .of_no_step rfl (run_zero_state s)⟩
  | succ n ih =>
    by_cases hnext : ∃ t, step s = .next t
    · obtain ⟨t, hstep⟩ := hnext
      obtain ⟨got, spent, h⟩ := ih t
      obtain ⟨-, ⟨hr, hp⟩ | ⟨b, hb, hr, hp⟩ | ⟨hs, hr, hp⟩⟩ := step_request hstep
      · exact ⟨got, spent, h.step_silent hstep hr hp⟩
      · exact ⟨b :: got, spent, h.step_byte hstep hb hr hp⟩
      · exact ⟨[], spent + 1, h.step_exhausted hstep hs hr hp⟩
    · have hstop := not_exists.mp hnext
      exact ⟨[], 0, .of_no_step (requests_stop _ hstop) (run_state_stop _ hstop)⟩

/-- Settles O59, by `answered`. -/
theorem requestsAnsweredInOrder : Obligations.RequestsAnsweredInOrder := by
  intro n s
  obtain ⟨got, spent, h⟩ := answered n s
  exact ⟨got, spent, h.answers, h.counted, h.bytes, h.exhausted⟩

end Sys2Proof.Machine
end

section
/-! PROOF. The opcode values that name no operation: NOP14 (R98) and NOP15 (R99). -/

namespace Sys2Proof.Machine

/-- The opcode field alone makes a word a NOP14: its 28 low bits are ignored (R98). -/
theorem decode_eq_nop14 {w : Word} (hop : opField w = 14#4) : decode w = .nop14 := by
  simp only [decode, hop]

/-- The opcode field alone makes a word a NOP15: its 28 low bits are ignored (R99). -/
theorem decode_eq_nop15 {w : Word} (hop : opField w = 15#4) : decode w = .nop15 := by
  unfold decode
  rw [hop]
  rfl

/-- Settles O20: the opcode selects NOP14, whose one effect is the state it is given. -/
theorem nop14ChangesNothing : Obligations.Nop14ChangesNothing := by
  refine ⟨?_, fun w hop => decode_eq_nop14 hop, fun s => ⟨s, effect_exec .nop14, rfl⟩⟩
  simp [encode, encStd]

/-- Settles O21: the opcode selects NOP15, whose one effect is the state it is given. -/
theorem nop15ChangesNothing : Obligations.Nop15ChangesNothing := by
  refine ⟨?_, fun w hop => decode_eq_nop15 hop, fun s => ⟨s, effect_exec .nop15, rfl⟩⟩
  simp [encode, encStd]

end Sys2Proof.Machine
end

section
/-! PROOF. Faults (R100 to R114): which instruction raises which fault and when, said once, and what the step that faults
leaves. -/

namespace Sys2Proof.Machine

/-! ### Entry of a fault -/

/-- Settles O26: `MalformedProgram` is raised where the fetch finds no word, before the advance; every other fault is raised
in the advanced state, by `step_status`; and no step starts in a state that has faulted. -/
theorem faultEntry : Obligations.FaultEntry := by
  intro s t c h hc
  refine ⟨?_, statusTransitions.1 t (by simp [hc])⟩
  obtain ⟨malformed, -, others⟩ := step_status h
  by_cases hm : c = .malformedProgram
  · subst hm
    cases (step_noWord (step_cases h).1 (malformed.mp hc)).symm.trans h
    rfl
  · obtain ⟨w, -, -, rfl⟩ := others c hc hm
    rw [if_neg hm]
    rfl

/-- Where handle 0 names a segment, the fetch finds no word exactly at or past its end (R66). -/
theorem fetch_eq_none_iff {s : State} {g : Segment} (hg : s.mem.segment? 0#32 = some g) :
    s.fetch = none ↔ g.len.toNat ≤ s.pc.toNat := by
  simp [State.fetch, Memory.read_of_segment? hg]

/-- Settles O27: a step ends in `MalformedProgram` exactly where the fetch finds no word. -/
theorem malformedProgramExactly : Obligations.MalformedProgramExactly := by
  intro s g hs hg
  rw [← fetch_eq_none_iff hg]
  constructor
  · rintro ⟨t, h, hc⟩
    exact (step_status h).1.mp hc
  · exact fun hf => ⟨_, step_noWord hs hf, rfl⟩

/-! ### The faults of EXECUTE -/

/-- The faults an instruction raises in EXECUTE, each with its condition (R102 to R104, R109, R114). -/
inductive Raises (s : State) : Instr → FaultCause → Prop where
  | aidxInvalid (a b c : RegIdx) : s.mem.segment? (s.reg b) = none → Raises s (.aidx a b c) .invalidHandle
  | aidxOutside (a b c : RegIdx) (g : Segment) : s.mem.segment? (s.reg b) = some g → g.len.toNat ≤ (s.reg c).toNat →
      Raises s (.aidx a b c) .indexOutOfBounds
  | amendInvalid (a b c : RegIdx) : s.mem.segment? (s.reg a) = none → Raises s (.amend a b c) .invalidHandle
  | amendOutside (a b c : RegIdx) (g : Segment) : s.mem.segment? (s.reg a) = some g → g.len.toNat ≤ (s.reg b).toNat →
      Raises s (.amend a b c) .indexOutOfBounds
  | divZero (a b c : RegIdx) : s.reg c = 0#32 → Raises s (.div a b c) .divideByZero
  | abandonInvalid (c : RegIdx) : s.reg c = 0#32 ∨ s.mem.valid (s.reg c) = false →
      Raises s (.abandon c) .invalidHandle
  | outputTooLarge (c : RegIdx) : 255 < (s.reg c).toNat → Raises s (.output c) .invalidOutputValue
  | loadprogInvalid (b c : RegIdx) : s.mem.segment? (s.reg b) = none → Raises s (.loadprog b c) .invalidHandle

/-- An instruction that raises a fault answers the state R106 describes. -/
theorem Raises.exec {i : Instr} {s : State} {cause : FaultCause} (h : Raises s i cause) :
    exec i s = .next (s.raise cause) := by
  apply effect_exec
  cases h <;> constructor <;> assumption

/-- A running machine is in a fault after an instruction only where the instruction raises it: every other effect but HALT's
keeps the status. -/
theorem effect_raises {i : Instr} {s t : State} {cause : FaultCause} (hs : s.status = .running) (h : Effect s i t)
    (hc : t.status = .faulted cause) : Raises s i cause ∧ t = s.raise cause := by
  cases h with
  | aidxInvalid | aidxOutside | amendInvalid | amendOutside | divZero | abandonInvalid | outputTooLarge
  | loadprogInvalid =>
    cases hc
    exact ⟨by constructor <;> assumption, rfl⟩
  | halt => cases hc
  | _ => cases hs.symm.trans hc

/-- The same of what `exec` answers. -/
theorem exec_raises {i : Instr} {s t : State} {cause : FaultCause} (hs : s.status = .running) (h : exec i s = .next t)
    (hc : t.status = .faulted cause) : Raises s i cause ∧ t = s.raise cause :=
  effect_raises hs (exec_effect h) hc

/-- The faults of EXECUTE are those `Raises` lists. -/
theorem exec_faults_iff {i : Instr} {s : State} {cause : FaultCause} (hs : s.status = .running) :
    (∃ t, exec i s = .next t ∧ t.status = .faulted cause) ↔ Raises s i cause :=
  ⟨fun ⟨_, h, hc⟩ => (exec_raises hs h hc).1, fun h => ⟨_, h.exec, rfl⟩⟩

/-- Settles O28: of the faults an instruction raises, one is this. -/
theorem divideByZeroExactly : Obligations.DivideByZeroExactly := by
  intro i s hs
  rw [exec_faults_iff hs]
  constructor
  · intro h
    cases h with
    | divZero a b c h0 => exact ⟨a, b, c, rfl, h0⟩
  · rintro ⟨a, b, c, rfl, h0⟩
    exact .divZero a b c h0

/-- Settles O30: of the faults an instruction raises, two are this. -/
theorem indexOutOfBoundsExactly : Obligations.IndexOutOfBoundsExactly := by
  intro i s hs
  rw [exec_faults_iff hs]
  constructor
  · intro h
    cases h with
    | aidxOutside a b c g hg hi => exact .inl ⟨a, b, c, g, rfl, hg, hi⟩
    | amendOutside a b c g hg hi => exact .inr ⟨a, b, c, g, rfl, hg, hi⟩
  · rintro (⟨a, b, c, g, rfl, hg, hi⟩ | ⟨a, b, c, g, rfl, hg, hi⟩)
    · exact .aidxOutside a b c g hg hi
    · exact .amendOutside a b c g hg hi

/-- Settles O31: of the faults an instruction raises, one is this, and taking a fault emits nothing. -/
theorem invalidOutputValueExactly : Obligations.InvalidOutputValueExactly := by
  intro i s hs
  refine ⟨(exec_faults_iff hs).trans ⟨?_, ?_⟩, fun t h hc => ?_⟩
  · intro h
    cases h with
    | outputTooLarge c hc => exact ⟨c, rfl, hc⟩
  · rintro ⟨c, rfl, hc⟩
    exact .outputTooLarge c hc
  · obtain ⟨-, rfl⟩ := exec_raises hs h hc
    exact State.raise_out ..

/-- Settles O32, by the list of the faults an instruction raises. -/
theorem faultsByInstruction : Obligations.FaultsByInstruction := by
  refine ⟨fun i s t c hs h hc => ?_, fun s hs hf => step_noWord hs hf⟩
  obtain ⟨raised, -⟩ := exec_raises hs h hc
  cases raised with
  | aidxInvalid | amendInvalid => exact .inl rfl
  | aidxOutside | amendOutside => exact .inr rfl
  | divZero | abandonInvalid | outputTooLarge | loadprogInvalid => rfl

/-! ### Invalid handles -/

/-- A handle is not valid exactly where it names no segment (R34). -/
theorem Memory.valid_eq_false_iff {m : Memory} {h : Word} : m.valid h = false ↔ m.segment? h = none :=
  ⟨Memory.segment?_of_invalid, Memory.invalid_of_segment?⟩

/-- A handle names no segment where it is outside the table or its entry is `EMPTY` (R20, R34). -/
theorem Memory.segment?_eq_none_iff {m : Memory} {h : Word} :
    m.segment? h = none ↔ m.seg.length ≤ h.toNat ∨ m.seg[h.toNat]? = some none := by
  rw [Memory.segment?, Option.join_eq_none_iff, List.getElem?_eq_none_iff]

/-- What every step keeps holds of all states that steps reach. -/
theorem Reaches.keeps {P : State → Prop} (hkept : ∀ s t, P s → Machine.step s = .next t → P t) {s t : State}
    (h : Reaches s t) (hs : P s) : P t := by
  induction h with
  | refl => exact hs
  | step hstep _ ih => exact ih (hkept _ _ hs hstep)

/-- Settles O29: of the faults an instruction raises, four are this; and the invariants, which every state reached from a
reset meets, say that handle 0 is valid. -/
theorem invalidHandleExactly : Obligations.InvalidHandleExactly := by
  refine ⟨fun i s hs => (exec_faults_iff hs).trans ?_, fun m h => Memory.valid_eq_false_iff.trans
    Memory.segment?_eq_none_iff, fun program config s t hboot hreach =>
    (hreach.keeps invariantsKept.2 (boot_inv hboot)).pool_ok.zero_valid⟩
  simp only [Memory.valid_eq_false_iff]
  constructor
  · intro h
    cases h with
    | aidxInvalid a b c hg => exact .inl ⟨a, b, c, rfl, hg⟩
    | amendInvalid a b c hg => exact .inr (.inl ⟨a, b, c, rfl, hg⟩)
    | loadprogInvalid b c hg => exact .inr (.inr (.inl ⟨b, c, rfl, hg⟩))
    | abandonInvalid c hbad => exact .inr (.inr (.inr ⟨c, rfl, hbad.imp_right Memory.valid_eq_false_iff.mp⟩))
  · rintro (⟨a, b, c, rfl, hg⟩ | ⟨a, b, c, rfl, hg⟩ | ⟨b, c, rfl, hg⟩ | ⟨c, rfl, hbad⟩)
    · exact .aidxInvalid a b c hg
    · exact .amendInvalid a b c hg
    · exact .loadprogInvalid b c hg
    · exact .abandonInvalid c (hbad.imp_right Memory.valid_eq_false_iff.mpr)

end Sys2Proof.Machine
end

section
/-! PROOF. What the host sees: the status pair (R101), the state after reset (R120, R121), and the observation of a run
(R131). -/

namespace Sys2Proof.Machine

/-! ### The status pair -/

/-- The cause a code of R101 stands for. -/
def FaultCause.ofCode : Nat → FaultCause
  | 1 => .divideByZero
  | 2 => .invalidHandle
  | 3 => .indexOutOfBounds
  | 4 => .invalidOutputValue
  | _ => .malformedProgram

/-- The status a host's pair stands for (R101). -/
def RunStatus.ofHostPair : Nat × Nat → RunStatus
  | (0, _) => .running
  | (1, _) => .halted
  | (_, code) => .faulted (.ofCode code)

theorem FaultCause.ofCode_code (c : FaultCause) : ofCode c.code = c := by
  cases c <;> rfl

theorem FaultCause.code_ne_zero (c : FaultCause) : c.code ≠ 0 := by
  cases c <;> simp [code]

/-- The host can read the status back from its pair. -/
theorem RunStatus.ofHostPair_hostPair (p : RunStatus) : ofHostPair p.hostPair = p := by
  cases p with
  | running | halted => rfl
  | faulted c => exact congrArg faulted c.ofCode_code

/-- Settles O55: the pairs can be read back, and no cause has the code 0. -/
theorem statusPairDistinguishes : Obligations.StatusPairDistinguishes := by
  refine ⟨rfl, fun _ _ h => Function.LeftInverse.injective RunStatus.ofHostPair_hostPair h, fun p => ?_⟩
  cases p with
  | running | halted => simp [RunStatus.hostPair]
  | faulted c => simp [RunStatus.hostPair, c.code_ne_zero]

/-! ### Reset -/

/-- Settles O53: the empty program gives a segment 0 of no words, so the first fetch finds none. -/
theorem resetIsBootOfEmptyProgram : Obligations.ResetIsBootOfEmptyProgram := by
  refine ⟨fun program config s h => ?_, boot_eq_some.mpr ⟨by decide, rfl⟩, ?_⟩
  · obtain ⟨-, rfl⟩ := boot_eq_some.mp h
    rfl
  · exact step_noWord rfl ((fetch_eq_none_iff (g := .empty) rfl).mpr (Nat.zero_le _))

/-! ### The observation of a run -/

/-- A run that is over makes no more requests with a larger budget. -/
theorem requests_of_finished {n : Nat} {s : State} (k : Nat) (hover : ∀ t, run n s ≠ .notFinished t) :
    requests (n + k) s = requests n s := by
  fun_induction run n s with
  | case3 s hs => exact absurd rfl (hover s)
  | case4 s hs n t hstep ih => rw [Nat.succ_add, requests_next _ hstep, requests_next _ hstep, ih hover]
  | case1 n s hs | case2 n s c hs =>
    have hstop := statusTransitions.1 s (by simp [hs])
    rw [requests_stop _ hstop, requests_stop _ hstop]
  | case5 s hs n r hstep | case6 s hs n r hstep =>
    have hstop (t : State) : step s ≠ .next t := by simp [hstep]
    rw [requests_stop _ hstop, requests_stop _ hstop]

/-- A step takes back no byte it has emitted (R97). -/
theorem step_out_prefix {s t : State} (h : step s = .next t) : s.out <+: t.out := by
  obtain ⟨-, hout | ⟨w, c, byte, -, -, hout⟩, -⟩ := environmentOnlyThroughInAndOut s t h
  · rw [hout]
  · rw [hout]
    exact List.prefix_append ..

/-- An end shows a state number other than 0 exactly where it is a halt or a fault. -/
theorem RunEnd.Honest.hostPair_ne_zero_iff {e : RunEnd} (h : e.Honest) :
    e.state.status.hostPair.1 ≠ 0 ↔ ∃ t, e = .halted t ∨ ∃ c, e = .faulted c t := by
  cases e with
  | halted t => simp [RunEnd.state, show t.status = .halted from h, RunStatus.hostPair]
  | faulted c t => simp [RunEnd.state, show t.status = .faulted c from h, RunStatus.hostPair]
  | stuck r t => simp [RunEnd.state, h.1, RunStatus.hostPair]
  | notFinished t => simp [RunEnd.state, show t.status = .running from h, RunStatus.hostPair]
  | refused r t => exact h.elim

/-- Settles O60: the end and the requests of a run that is over stay, each step keeps the bytes emitted at the front, and
the end of a run says how it ended. -/
theorem observationOfFinishedRun : Obligations.ObservationOfFinishedRun := by
  refine ⟨fun n k s hover => ?_, fun n s => ?_, fun n s => (run_honest n s).hostPair_ne_zero_iff⟩
  · simp only [observe, largerBudgetSameEnd n k s hover, requests_of_finished k hover]
  · exact (run_reaches n s).keeps (P := fun t => s.out <+: t.out) (fun _ _ hp h => hp.trans (step_out_prefix h))
      (List.prefix_refl _)

end Sys2Proof.Machine
end
